-- ==== Sys2Proof/Word.lean ====
section
/-! DEFINITION. The word types of the block, each at the one width the spec gives it (00_scope.md R6, R7).
Every value is unsigned and bit 0 is the least significant bit. -/

namespace Sys2Proof

/-- One input or output unit of the port, `UNIT_W` = 8 bits (R6, R54). -/
abbrev Byte := BitVec 8

/-- A 6-bit value, one base64 character's worth of data (R10). -/
abbrev Sextet := BitVec 6

/-- The encoder's group and the decoder's quantum, `ACC_W` = 24 bits (R6, R28, R29). -/
abbrev Word24 := BitVec 24

/-- One host transaction `T[9:0]` (30_encoding.md R70). -/
abbrev TWord := BitVec 10

/-- The counters as the host reads them, `CNT_W` = 32 bits (R6, R25, R26). -/
abbrev Count := BitVec 32

/-- The values `OUT_CAP` may take (R6): a natural number in `[0, 2^32-1]`, or `none` for `INF`. -/
abbrev Capacity := Option (Fin 4294967296)

end Sys2Proof
end

