-- ==== Sys2Proof/Config.lean ====
section
/-! DEFINITION. What an implementation of the block fixes and the spec leaves OPEN (00_scope.md R6, 93 X3). -/

namespace Sys2Proof

/-- `OUT_CAP`, the output capacity of this implementation: OPEN in the spec (R6, decision D12), so it has no body
and nothing can be proved of its value (notes/assumptions/1.md). -/
opaque Config.outCap : Capacity

end Sys2Proof
end

