-- ==== Sys2Proof/Syntax.lean ====
section
/-! DEFINITION. The transactions of the block (30_encoding.md R78, one constructor per row of opcode_table.json) and
the lines of its assembler (R79, R80). -/

namespace Sys2Proof

/-- The two alphabets in scope (00_scope.md R2), the values of `ALPH`. -/
inductive Alphabet where
  | standard
  | urlSafe
  deriving DecidableEq, Repr

/-- The four transactions (R78). Every field admits exactly the values the encoding admits. -/
inductive Instr where
  /-- CMD.ENCODE `0000000sa0` (40_control.md R90). -/
  | cmdEncode (alph : Alphabet) (strict : Bool)
  /-- CMD.DECODE `0000000sa1` (R91). -/
  | cmdDecode (alph : Alphabet) (strict : Bool)
  /-- DATA `01dddddddd` (R92). -/
  | data (unit : Byte)
  /-- END `1000000000` (R93). -/
  | endInput
  deriving DecidableEq, Repr

/-- A byte operand as the assembler's source writes it (R79): a number, or a character `'c'`. -/
inductive AsmByte where
  | num (n : Nat)
  | chr (c : Char)
  deriving DecidableEq, Repr

/-- One line of assembler source: the four transactions (R79), the pseudo-instructions (R80), or no statement. -/
inductive AsmLine where
  | blank
  | cmdEncode (alph : Alphabet) (strict : Bool)
  | cmdDecode (alph : Alphabet) (strict : Bool)
  | data (b : AsmByte)
  | endInput
  | encStd
  | encUrl
  | decStd
  | decUrl
  | decStdLax
  | decUrlLax
  | datas (text : List Char)
  | datab (bytes : List AsmByte)
  | encode (alph : Alphabet) (bytes : List AsmByte)
  | decode (alph : Alphabet) (text : List Char)
  deriving DecidableEq, Repr

end Sys2Proof
end

