-- ==== Sys2Proof/Machine/State.lean ====
section
/-! DEFINITION. The state of the block (10_state.md R20 to R39, 20_memory.md R50), what waits at its host port, the ways a
step can stop, and the state after reset (R37, 70_reset_and_hazards.md R170). -/

namespace Sys2Proof.Machine

/-- R20: PHASE, the internal control register. -/
inductive Phase where
  | idle
  | run
  | drain
  | done
  deriving DecidableEq, Repr

/-- R27, 60_exceptions.md R150: the values of ERR, codes 0 to 3 in this order. -/
inductive ErrCode where
  | none
  | invalidCharacter
  | truncatedInput
  | allocationFailure
  deriving DecidableEq, Repr

/-- What the host does next at the port (R59, R97, R170): issue a transaction word, assert RESET, or read. -/
inductive PortEvent where
  /-- Issue the transaction `T[9:0]` (R70). -/
  | word (t : TWord)
  /-- Assert RESET between two transactions (R170). -/
  | reset
  /-- Read the register of this number (R39). -/
  | readReg (n : Nat)
  /-- Read the output unit `OUT[i]` (R39). -/
  | readOut (i : Nat)
  deriving DecidableEq, Repr

/-- What a host read returns (R39): STATUS, CFG and OUT[i] are 8 bits wide, IN_CNT and OUT_CNT are read as 32 bits. -/
inductive Answer where
  | byte (v : Byte)
  | count (v : Count)
  deriving DecidableEq, Repr

/-- The whole machine: the block's registers, the implementation's capacity, and the two ends of the host port. -/
structure State where
  /-- PHASE (R20). -/
  phase : Phase
  /-- CFG, register 1 (R23). -/
  cfg : Byte
  /-- ERR (R27). -/
  err : ErrCode
  /-- IN_CNT, register 2, modulo 2^32 (R25). -/
  inCnt : Count
  /-- OUT, the output sequence, first unit first (R50). -/
  out : List Byte
  /-- EG, the encoder's group register (R28). -/
  eg : Word24
  /-- EC, the bytes held in the group: "in {0, 1, 2}" (R28, notes/assumptions/4.md). -/
  ec : Fin 3
  /-- DQ, the decoder's quantum register (R29). -/
  dq : Word24
  /-- DK, the sextets held in the quantum: "in {0, 1, 2, 3}" (R29). -/
  dk : Fin 4
  /-- OUT_CAP (R6): no step writes it (notes/assumptions/1.md). -/
  outCap : Capacity
  /-- MODEL: what the host does next, in order (R59, notes/assumptions/2.md). -/
  pending : List PortEvent
  /-- MODEL: what the host's reads have returned, in order (R97, notes/assumptions/3.md). -/
  answers : List Answer
  deriving DecidableEq, Repr

/-- The block has no fault: what goes wrong with the input is recorded in ERR and the machine goes on
(60_exceptions.md R150, R153), and what the spec gives no meaning to is refused (R96). So this type is empty, and that no
step faults holds by its type. Safe. -/
inductive Fault where
  deriving DecidableEq, Repr

/-- Why the model takes no step. Every constructor but the first is a case of 40_control.md R96, where "The hardware's
response to these words is not specified"; a refusal gives no run, so each is safe. -/
inductive Refusal where
  /-- Raised by an arm of `exec` without a meaning: no arm has one. Safe. -/
  | notModelled (mnemonic : String)
  /-- A CMD word with `P[7:3] ≠ 0` (R75). Raised by `step`. Safe. -/
  | reservedCmdBits
  /-- An END word with a payload other than 0 (R75). Raised by `step`. Safe. -/
  | endPayload
  /-- A word of KIND 0b11 (R75). Raised by `step`. Safe. -/
  | reservedKind
  /-- A CMD while PHASE is RUN or DRAIN (R90, R91). Safe. -/
  | cmdWhileBusy
  /-- A DATA while PHASE is IDLE or DONE (R92). Safe. -/
  | dataWhileIdle
  /-- An END while PHASE is IDLE or DONE (R93). Safe. -/
  | endWhileIdle
  /-- A read of a register number other than 0..3 (R39). Raised by `step`. Safe. -/
  | badRegRead
  /-- A read of `OUT[i]` with `i >= OUT_CNT` (R39). Raised by `step`. Safe. -/
  | badOutRead
  deriving DecidableEq, Repr

/-- R37: the state after reset of a block whose `OUT_CAP` is `cap`, with nothing waiting at the port. -/
def State.resetWith (cap : Capacity) : State :=
  { phase := .idle, cfg := 0#8, err := .none, inCnt := 0#32, out := [],
    eg := 0#24, ec := 0, dq := 0#24, dk := 0,
    outCap := cap, pending := [], answers := [] }

/-- R37, R170: the state after reset; the capacity is the OPEN parameter `Config.outCap`. -/
def State.reset : State := State.resetWith Config.outCap

end Sys2Proof.Machine
end

