-- ==== Sys2Proof/Machine/Flags.lean ====
section
/-! DEFINITION. STATUS and its fields, a view of PHASE and ERR with no storage of its own (10_state.md R24, R38). -/

namespace Sys2Proof.Machine

/-- R20: the encodings IDLE = 0, RUN = 1, DRAIN = 2, DONE = 3. -/
def Phase.code : Phase → BitVec 2
  | .idle => 0#2
  | .run => 1#2
  | .drain => 2#2
  | .done => 3#2

/-- R27: the codes of ERR. -/
def ErrCode.code : ErrCode → BitVec 2
  | .none => 0#2
  | .invalidCharacter => 1#2
  | .truncatedInput => 2#2
  | .allocationFailure => 3#2

/-- R24: BUSY, PHASE is RUN or DRAIN. -/
def State.busy (s : State) : Bool := s.phase == .run || s.phase == .drain

/-- R24: DONE. -/
def State.done (s : State) : Bool := s.phase == .done

/-- R24: OUT_VALID, PHASE = DONE and ERR = 0. -/
def State.outValid (s : State) : Bool := s.phase == .done && s.err == .none

/-- R24: `STATUS = zext_8(ERR ++ OUT_VALID ++ DONE ++ BUSY)`. -/
def State.status (s : State) : Byte :=
  (s.err.code ++ BitVec.ofBool s.outValid ++ BitVec.ofBool s.done ++ BitVec.ofBool s.busy : BitVec 5).setWidth 8

/-- R26: OUT_CNT, the length of OUT as the host reads it. -/
def State.outCnt (s : State) : Count := BitVec.ofNat 32 s.out.length

end Sys2Proof.Machine
end

