-- ==== Sys2Proof/WellFormed.lean ====
section
/-! DEFINITION. The checks on raw input: which 10-bit words are transactions (30_encoding.md R75) and which assembler
lines the assembler accepts (R79). A term of `Instr` needs no check of its own: each operand's type (`Alphabet`, `Bool`,
`Byte`) has exactly the values the encoding has. -/

namespace Sys2Proof

/-- R75: the 265 legal words. A CMD has `P[7:3] = 0`, a DATA any payload, an END the payload 0. -/
def legalWord (t : TWord) : Bool :=
  (t.extractLsb' 8 2 == 0#2 && t.extractLsb' 3 5 == 0#5)
    || t.extractLsb' 8 2 == 1#2
    || (t.extractLsb' 8 2 == 2#2 && t.extractLsb' 0 8 == 0#8)

/-- R31: the character has a 7-bit ASCII code. -/
def asciiChar (c : Char) : Bool := decide (c.toNat < 128)

/-- R79: a numeric byte is in 0..255, a character byte stands for an ASCII code. -/
def AsmByte.wellFormed : AsmByte → Bool
  | .num n => decide (n ≤ 255)
  | .chr c => asciiChar c

/-- R79: "The assembler rejects a byte outside 0..255". -/
def AsmLine.wellFormed : AsmLine → Bool
  | .data b => b.wellFormed
  | .datas text => text.all asciiChar
  | .datab bytes => bytes.all AsmByte.wellFormed
  | .encode _ bytes => bytes.all AsmByte.wellFormed
  | .decode _ text => text.all asciiChar
  | .blank | .cmdEncode _ _ | .cmdDecode _ _ | .endInput
  | .encStd | .encUrl | .decStd | .decUrl | .decStdLax | .decUrlLax => true

end Sys2Proof
end

