-- ==== Sys2Proof/Decode.lean ====
section
/-! DEFINITION. The decoder, total over every 10-bit word (30_encoding.md R76), the encoder written from the patterns of
R78, and the opcode map of R78 as data. -/

namespace Sys2Proof

/-- Why a word spells no transaction (R75, R76). -/
inductive DecodeError where
  /-- KIND = 0b00 with `P[7:3] ≠ 0`. -/
  | reservedCmdBits
  /-- KIND = 0b10 with a payload other than 0. -/
  | endPayload
  /-- KIND = 0b11. -/
  | reservedKind
  deriving DecidableEq, Repr

/-- R70: `T[9:8]`. -/
def wordKind (t : TWord) : BitVec 2 := t.extractLsb' 8 2

/-- R70: `T[7:0]`. -/
def wordPayload (t : TWord) : Byte := t.extractLsb' 0 8

/-- R72: ALPH, 0 = STANDARD and 1 = URL_SAFE. -/
def alphabetOfBit (b : Bool) : Alphabet := if b then .urlSafe else .standard

/-- R72: the bit of ALPH. -/
def Alphabet.bit : Alphabet → Bool
  | .standard => false
  | .urlSafe => true

/-- R76: the only decode step. -/
def decode (t : TWord) : Except DecodeError Instr :=
  if wordKind t = 0#2 then
    if t.extractLsb' 3 5 = 0#5 then
      if t.getLsbD 0 then .ok (.cmdDecode (alphabetOfBit (t.getLsbD 1)) (t.getLsbD 2))
      else .ok (.cmdEncode (alphabetOfBit (t.getLsbD 1)) (t.getLsbD 2))
    else .error .reservedCmdBits
  else if wordKind t = 1#2 then .ok (.data (wordPayload t))
  else if wordKind t = 2#2 then
    if wordPayload t = 0#8 then .ok .endInput else .error .endPayload
  else .error .reservedKind

/-- R78: the word of a transaction, from the patterns `0000000sa0`, `0000000sa1`, `01dddddddd` and `1000000000`. -/
def encode : Instr → TWord
  | .cmdEncode a s => 0#7 ++ BitVec.ofBool s ++ BitVec.ofBool a.bit ++ 0#1
  | .cmdDecode a s => 0#7 ++ BitVec.ofBool s ++ BitVec.ofBool a.bit ++ 1#1
  | .data u => 1#2 ++ u
  | .endInput => 2#2 ++ 0#8

/-- One row of the opcode map: a word matches when `T & mask = pattern` (R78). -/
structure OpRow where
  mnemonic : String
  pattern  : TWord
  mask     : TWord
  deriving DecidableEq, Repr

/-- R78: "A word matches a row when `T & mask = match`". -/
def OpRow.fits (r : OpRow) (t : TWord) : Bool := t &&& r.mask == r.pattern

/-- R78: the opcode map. -/
def opcodeMap : List OpRow :=
  [⟨"CMD.ENCODE", 0x000#10, 0x3F9#10⟩,
   ⟨"CMD.DECODE", 0x001#10, 0x3F9#10⟩,
   ⟨"DATA", 0x100#10, 0x300#10⟩,
   ⟨"END", 0x200#10, 0x3FF#10⟩]

/-- The mnemonic of a transaction's row in R78. -/
def Instr.mnemonic : Instr → String
  | .cmdEncode _ _ => "CMD.ENCODE"
  | .cmdDecode _ _ => "CMD.DECODE"
  | .data _ => "DATA"
  | .endInput => "END"

/-- The 10-bit word of a number given as `nbits` bits with bit 0 least significant. R70: no transaction is longer than
10 bits, so a number with a bit set above bit 9 is no word (notes/assumptions/6.md). -/
def tableWord (nbits w : Nat) : Option TWord :=
  if w % 2 ^ nbits < 1024 then some (BitVec.ofNat 10 (w % 2 ^ nbits)) else none

/-- The transaction the decoder reads from an opcode-table word. -/
def decodeTableWord (nbits w : Nat) : Option Instr :=
  match tableWord nbits w with
  | some t => (decode t).toOption
  | none => none

end Sys2Proof
end

