-- ==== Sys2Proof/Machine/Operands.lean ====
section
/-! DEFINITION. What a transaction's operands stand for: the fields of CFG (10_state.md R23), the look-up tables (R30 to
R35), the classes of an input unit (42_decoder.md R121), and the fields of a group and of a quantum (41_encoder.md R101,
42_decoder.md R123). -/

namespace Sys2Proof.Machine

/-- CFG.OP (R23). -/
inductive Op where
  | encode
  | decode
  deriving DecidableEq, Repr

/-- R23: `CFG[0]`, 0 = ENCODE and 1 = DECODE. -/
def cfgOp (c : Byte) : Op := if c.getLsbD 0 then .decode else .encode

/-- R23: `CFG[1]`. -/
def cfgAlph (c : Byte) : Alphabet := alphabetOfBit (c.getLsbD 1)

/-- R23: `CFG[2]`. -/
def cfgStrict (c : Byte) : Bool := c.getLsbD 2

/-- R90, R91: the value a CMD latches, `0b00000 ++ s ++ a ++ o`. -/
def cfgValue (op : Op) (a : Alphabet) (s : Bool) : Byte :=
  0#5 ++ BitVec.ofBool s ++ BitVec.ofBool a.bit ++ BitVec.ofBool (op == .decode)

/-- R31: the padding symbol `=`, no member of either alphabet (R35). -/
def padCode : Byte := 0x3D#8

/-- R32: the alphabet look-up, in the rule's closed form. It reads the alphabet for 62 and 63 only (R35). -/
def fwdLUT (a : Alphabet) (v : Sextet) : Byte :=
  if v < 26#6 then 0x41#8 + v.setWidth 8
  else if v < 52#6 then 0x61#8 + (v.setWidth 8 - 26#8)
  else if v < 62#6 then 0x30#8 + (v.setWidth 8 - 52#8)
  else if v = 62#6 then
    match a with
    | .standard => 0x2B#8
    | .urlSafe => 0x2D#8
  else
    match a with
    | .standard => 0x2F#8
    | .urlSafe => 0x5F#8

/-- R33: the reverse look-up, which undoes `fwdLUT` (R35); `none` is the sentinel INVALID. -/
def revLUT (a : Alphabet) (c : Byte) : Option Sextet :=
  if 0x41#8 ≤ c ∧ c ≤ 0x5A#8 then some ((c - 0x41#8).setWidth 6)
  else if 0x61#8 ≤ c ∧ c ≤ 0x7A#8 then some ((c - 0x61#8 + 26#8).setWidth 6)
  else if 0x30#8 ≤ c ∧ c ≤ 0x39#8 then some ((c - 0x30#8 + 52#8).setWidth 6)
  else if (a = .standard ∧ c = 0x2B#8) ∨ (a = .urlSafe ∧ c = 0x2D#8) then some 62#6
  else if (a = .standard ∧ c = 0x2F#8) ∨ (a = .urlSafe ∧ c = 0x5F#8) then some 63#6
  else none

/-- R34: the pad comparator. -/
def isPad (c : Byte) : Bool := c == padCode

/-- R121: the class of an input unit of a decode. -/
inductive UnitClass where
  | data (v : Sextet)
  | pad
  | other
  deriving DecidableEq, Repr

/-- R121: `Class(A, u)`. -/
def classify (a : Alphabet) (u : Byte) : UnitClass :=
  match revLUT a u with
  | some v => .data v
  | none => if isPad u then .pad else .other

/-- R52: the group of three bytes, `b0 ++ b1 ++ b2`, the first byte most significant. -/
def pack (b0 b1 b2 : Byte) : Word24 := b0 ++ b1 ++ b2

/-- R101: lane `j` of the splitter, `w[23-6j : 18-6j]`. -/
def lane (w : Word24) (j : Fin 4) : Sextet := w.extractLsb' (18 - 6 * j.val) 6

/-- R102: lane `j` mapped through the alphabet. -/
def laneChar (a : Alphabet) (w : Word24) (j : Fin 4) : Byte := fwdLUT a (lane w j)

/-- R53: byte `w[23:16]` of a group or quantum. -/
def byteHigh (w : Word24) : Byte := w.extractLsb' 16 8

/-- R53: byte `w[15:8]`. -/
def byteMid (w : Word24) : Byte := w.extractLsb' 8 8

/-- R53: byte `w[7:0]`. -/
def byteLow (w : Word24) : Byte := w.extractLsb' 0 8

/-- R123: put sextet `v` in place as sextet number `dk` of the quantum. -/
def insertSextet (dq : Word24) (dk : Fin 4) (v : Sextet) : Word24 :=
  dq ||| (v.setWidth 24 <<< (18 - 6 * dk.val))

end Sys2Proof.Machine
end

