-- ==== Sys2Proof/Machine/Ops.lean ====
section
/-! DEFINITION. The shared operations: starting an operation (40_control.md R90, R91), emission (20_memory.md R55), error
entry (60_exceptions.md R153), the host's reads (10_state.md R39) and reset (70_reset_and_hazards.md R170). There is no
return from an error (60_exceptions.md R156). -/

namespace Sys2Proof.Machine

/-- The port event at the front is taken up (R59). -/
def State.consume (s : State) : State := { s with pending := s.pending.tail }

/-- R92: `IN_CNT <- IN_CNT + 1`. -/
def State.countUnit (s : State) : State := { s with inCnt := s.inCnt + 1#32 }

/-- `EG <- eg; EC <- ec` (R103, R104). -/
def State.setGroup (s : State) (eg : Word24) (ec : Fin 3) : State := { s with eg := eg, ec := ec }

/-- `DQ <- dq; DK <- dk` (R124, R125). -/
def State.setQuantum (s : State) (dq : Word24) (dk : Fin 4) : State := { s with dq := dq, dk := dk }

/-- `PHASE <- p` (R93, R95). -/
def State.setPhase (s : State) (p : Phase) : State := { s with phase := p }

/-- `OUT <- OUT ++ us` (R55). -/
def State.appendOut (s : State) (us : List Byte) : State := { s with out := s.out ++ us }

/-- The model's record of what a read returned (R97). -/
def State.answer (s : State) (a : Answer) : State := { s with answers := s.answers ++ [a] }

/-- R90, R91: what every accepted CMD does, with `c` the value latched into CFG. -/
def State.startOperation (s : State) (c : Byte) : State :=
  { s with
    cfg := c, err := .none, inCnt := 0#32, out := [],
    eg := 0#24, ec := 0, dq := 0#24, dk := 0, phase := .run }

/-- R170: every register of the block at its reset value. The capacity is the implementation's, and the port is the
host's: both stay (notes/assumptions/5.md). -/
def State.resetBlock (s : State) : State :=
  { State.resetWith s.outCap with pending := s.pending, answers := s.answers }

/-- R55: an emission of `n` units after `len` units stays within the capacity. -/
def capFits (cap : Capacity) (len n : Nat) : Bool :=
  match cap with
  | none => true
  | some c => decide (len + n ≤ c.val)

/-- R55: `Emit`, all units or none. -/
def emit (us : List Byte) (s : State) : Except ErrCode State :=
  if capFits s.outCap s.out.length us.length then .ok (s.appendOut us) else .error .allocationFailure

/-- The transactions that can raise an error (R150). -/
inductive Raiser where
  | data
  | endInput
  deriving DecidableEq, Repr

/-- R153: error entry, `raise Err(code)`. A DATA moves PHASE to DRAIN; for an END, R93 sets PHASE afterwards. -/
def State.raiseErr (s : State) (r : Raiser) (code : ErrCode) : State :=
  match r with
  | .data => { s with err := code, phase := .drain }
  | .endInput => { s with err := code }

/-- R153, "Errors are precise": the state after a datapath rule is the one the rule gives, or error entry on the state
`s` the rule started from. -/
def settle (r : Raiser) (s : State) : Except ErrCode State → State
  | .ok t => t
  | .error code => s.raiseErr r code

/-- R39: the register of number `n`. The reserved bits `CFG[7:3]` read as 0 (R23). -/
def regRead (n : Nat) (s : State) : Option Answer :=
  match n with
  | 0 => some (.byte s.status)
  | 1 => some (.byte (s.cfg &&& 0x07#8))
  | 2 => some (.count s.inCnt)
  | 3 => some (.count s.outCnt)
  | _ => none

/-- R39: `OUT[i]` for `0 <= i < OUT_CNT`. -/
def outRead (i : Nat) (s : State) : Option Answer := (s.out[i]?).map Answer.byte

/-- R39, R96, R97: a host read of a register. -/
def hostReadReg (n : Nat) (s : State) : Host.Outcome State Fault Refusal :=
  match regRead n s with
  | some a => .next (s.answer a)
  | none => .refused .badRegRead

/-- R39, R96, R97: a host read of an output unit. -/
def hostReadOut (i : Nat) (s : State) : Host.Outcome State Fault Refusal :=
  match outRead i s with
  | some a => .next (s.answer a)
  | none => .refused .badOutRead

/-- R96: the refusal of a reserved word. -/
def refusalOf : DecodeError → Refusal
  | .reservedCmdBits => .reservedCmdBits
  | .endPayload => .endPayload
  | .reservedKind => .reservedKind

end Sys2Proof.Machine
end

