-- ==== Sys2Proof/Machine/Decoder.lean ====
section
/-! DEFINITION. The decoder datapath (42_decoder.md R120 to R126). -/

namespace Sys2Proof.Machine

/-- R123, R125: the three bytes of a full quantum. -/
def quantumBytes (q : Word24) : List Byte := [byteHigh q, byteMid q, byteLow q]

/-- R124: `Terminate()`, the padding validator. The bits an emission drops are not checked (R132). -/
def terminate (s : State) : Except ErrCode State :=
  match s.dk with
  | 0 => .ok s
  | 1 => .error .truncatedInput
  | 2 => (emit [byteHigh s.dq] s).map fun t => t.setQuantum 0#24 0
  | 3 => (emit [byteHigh s.dq, byteMid s.dq] s).map fun t => t.setQuantum 0#24 0

/-- R125, class DATA(v): FILLING(k) goes to FILLING(k+1), and the fourth sextet emits the quantum. -/
def acceptSextet (v : Sextet) (s : State) : Except ErrCode State :=
  if s.dk = 3 then
    (emit (quantumBytes (insertSextet s.dq s.dk v)) s).map fun t => t.setQuantum 0#24 0
  else .ok (s.setQuantum (insertSextet s.dq s.dk v) (s.dk + 1))

/-- R125: `DecData(u)`. -/
def decData (u : Byte) (s : State) : Except ErrCode State :=
  match classify (cfgAlph s.cfg) u with
  | .data v => acceptSextet v s
  | .pad => terminate s
  | .other => if cfgStrict s.cfg then .error .invalidCharacter else terminate s

/-- R126: `DecEnd()`. -/
def decEnd (s : State) : Except ErrCode State := terminate s

end Sys2Proof.Machine
end

