-- ==== Sys2Proof/Machine/Encoder.lean ====
section
/-! DEFINITION. The encoder datapath (41_encoder.md R100 to R104). -/

namespace Sys2Proof.Machine

/-- R101, R102: the four characters of a full group. -/
def groupChars (a : Alphabet) (w : Word24) : List Byte :=
  [laneChar a w 0, laneChar a w 1, laneChar a w 2, laneChar a w 3]

/-- R104, EC = 1: two characters and `==`. -/
def tailChars1 (a : Alphabet) (w : Word24) : List Byte :=
  [laneChar a w 0, laneChar a w 1, padCode, padCode]

/-- R104, EC = 2: three characters and `=`. -/
def tailChars2 (a : Alphabet) (w : Word24) : List Byte :=
  [laneChar a w 0, laneChar a w 1, laneChar a w 2, padCode]

/-- R103: `EncData(u)`. -/
def encData (u : Byte) (s : State) : Except ErrCode State :=
  match s.ec with
  | 0 => .ok (s.setGroup (pack u 0#8 0#8) 1)
  | 1 => .ok (s.setGroup (pack (byteHigh s.eg) u 0#8) 2)
  | 2 => (emit (groupChars (cfgAlph s.cfg) (pack (byteHigh s.eg) (byteMid s.eg) u)) s).map
      fun t => t.setGroup 0#24 0

/-- R104: `EncEnd()`, the padding logic. -/
def encEnd (s : State) : Except ErrCode State :=
  match s.ec with
  | 0 => .ok s
  | 1 => (emit (tailChars1 (cfgAlph s.cfg) s.eg) s).map fun t => t.setGroup 0#24 0
  | 2 => (emit (tailChars2 (cfgAlph s.cfg) s.eg) s).map fun t => t.setGroup 0#24 0

end Sys2Proof.Machine
end

