-- ==== Sys2Proof/Machine/Control.lean ====
section
/-! DEFINITION. The meanings of the four transactions (40_control.md R90 to R95). A meaning runs after the word has left
the port, and it never touches the port. -/

namespace Sys2Proof.Machine

/-- R90: CMD.ENCODE. STRICT is latched and otherwise ignored. -/
def execCmdEncode (a : Alphabet) (strict : Bool) (s : State) : Host.Outcome State Fault Refusal :=
  match s.phase with
  | .run | .drain => .refused .cmdWhileBusy
  | .idle | .done => .next (s.startOperation (cfgValue .encode a strict))

/-- R91: CMD.DECODE. -/
def execCmdDecode (a : Alphabet) (strict : Bool) (s : State) : Host.Outcome State Fault Refusal :=
  match s.phase with
  | .run | .drain => .refused .cmdWhileBusy
  | .idle | .done => .next (s.startOperation (cfgValue .decode a strict))

/-- R92: the datapath of DATA in RUN, selected by CFG.OP. -/
def datapathData (u : Byte) (s : State) : Except ErrCode State :=
  match cfgOp s.cfg with
  | .encode => encData u s
  | .decode => decData u s

/-- R93: the datapath of END in RUN, selected by CFG.OP. -/
def datapathEnd (s : State) : Except ErrCode State :=
  match cfgOp s.cfg with
  | .encode => encEnd s
  | .decode => decEnd s

/-- R92, R94: DATA. IN_CNT counts the unit before its effect, also when the unit raises an error (R25). -/
def execData (u : Byte) (s : State) : Host.Outcome State Fault Refusal :=
  match s.phase with
  | .idle | .done => .refused .dataWhileIdle
  | .drain => .next s
  | .run => .next (settle .data s.countUnit (datapathData u s.countUnit))

/-- R93, R95: END. PHASE ends at DONE also when the datapath raised an error. -/
def execEnd (s : State) : Host.Outcome State Fault Refusal :=
  match s.phase with
  | .idle | .done => .refused .endWhileIdle
  | .drain => .next (s.setPhase .done)
  | .run => .next ((settle .endInput s (datapathEnd s)).setPhase .done)

end Sys2Proof.Machine
end

