-- ==== Sys2Proof/Machine/Dispatch.lean ====
section
/-! DEFINITION. One arm per transaction (30_encoding.md R78). -/

namespace Sys2Proof.Machine

def exec (i : Instr) (s : State) : Host.Outcome State Fault Refusal :=
  match i with
  | .cmdEncode alph strict => Sys2Proof.Machine.execCmdEncode alph strict s
  | .cmdDecode alph strict => Sys2Proof.Machine.execCmdDecode alph strict s
  | .data unit => Sys2Proof.Machine.execData unit s
  | .endInput => Sys2Proof.Machine.execEnd s

end Sys2Proof.Machine
end

