-- ==== Sys2Proof/Machine/Step.lean ====
section
/-! DEFINITION. One step: the block takes up what the host does next at the port (20_memory.md R59). -/

namespace Sys2Proof.Machine

/-- R76, R96: a transaction word, checked first against the encoding and then, by its meaning, against PHASE. -/
def stepWord (t : TWord) (s : State) : Host.Outcome State Fault Refusal :=
  match decode t with
  | .ok i => exec i s
  | .error e => .refused (refusalOf e)

/-- One event of the port, already taken up by `s`. -/
def stepEvent (e : PortEvent) (s : State) : Host.Outcome State Fault Refusal :=
  match e with
  | .word t => stepWord t s
  | .reset => .next s.resetBlock
  | .readReg n => hostReadReg n s
  | .readOut i => hostReadOut i s

/-- R59: one event, to completion. With nothing at the port the block keeps its state (60_exceptions.md R164,
notes/assumptions/2.md). -/
def step (s : State) : Host.Outcome State Fault Refusal :=
  match s.pending with
  | [] => .next s
  | e :: _ => stepEvent e s.consume

/-- `s` with the opcode-table word `w` issued next at the port. The block fetches nothing (10_state.md R21): its program is
what the host issues. A number that is no 10-bit word can't be issued and leaves `s` as it is. -/
def State.withFetchWord (s : State) (nbits w : Nat) : State :=
  match tableWord nbits w with
  | some t => { s with pending := .word t :: s.pending }
  | none => s

end Sys2Proof.Machine
end

