-- ==== Sys2Proof/Machine/Assembler.lean ====
section
/-! DEFINITION. The assembler (30_encoding.md R79, R80): the text of one line, read to an `AsmLine`, and its expansion to
transactions. Where R79 fixes no lexical detail the choice is logged in notes/assumptions/7.md. -/

namespace Sys2Proof.Machine

/-- R79: the byte an accepted operand stands for. -/
def asmByteValue : AsmByte → Byte
  | .num n => BitVec.ofNat 8 n
  | .chr c => BitVec.ofNat 8 c.toNat

/-- R80: one DATA per byte, in order. -/
def datasOf (bs : List AsmByte) : List Instr := bs.map fun b => .data (asmByteValue b)

/-- R80: one DATA per character, in order. -/
def datasOfText (cs : List Char) : List Instr := datasOf (cs.map .chr)

/-- R79, R80: what an accepted line stands for. -/
def expansion : AsmLine → List Instr
  | .blank => []
  | .cmdEncode a s => [.cmdEncode a s]
  | .cmdDecode a s => [.cmdDecode a s]
  | .data b => datasOf [b]
  | .endInput => [.endInput]
  | .encStd => [.cmdEncode .standard false]
  | .encUrl => [.cmdEncode .urlSafe false]
  | .decStd => [.cmdDecode .standard true]
  | .decUrl => [.cmdDecode .urlSafe true]
  | .decStdLax => [.cmdDecode .standard false]
  | .decUrlLax => [.cmdDecode .urlSafe false]
  | .datas text => datasOfText text
  | .datab bytes => datasOf bytes
  | .encode a bytes => .cmdEncode a false :: datasOf bytes ++ [.endInput]
  | .decode a text => .cmdDecode a true :: datasOfText text ++ [.endInput]

/-- R79: a line the assembler rejects has no expansion. -/
def expand (l : AsmLine) : Option (List Instr) :=
  if l.wellFormed then some (expansion l) else none

/-- The lexical elements of a line. -/
inductive Token where
  | name (cs : List Char)
  | comma
  | chr (c : Char)
  | str (cs : List Char)
  deriving DecidableEq, Repr

/-- Where the lexer stands; a name or a string is held with its last character first. -/
inductive LexMode where
  | plain (acc : List Char)
  | quoted (acc : List Char)
  | charOpen
  | charBody (c : Char)
  deriving DecidableEq, Repr

/-- The apostrophe around a character operand. -/
def apostrophe : Char := Char.ofNat 39

/-- The quote around a string operand. -/
def doubleQuote : Char := Char.ofNat 34

/-- A space or a tab. -/
def isBlank (c : Char) : Bool := c == ' ' || c == '\t'

/-- The name held so far, if any, before the tokens that follow it. -/
def flushName (acc : List Char) (ts : List Token) : List Token :=
  if acc.isEmpty then ts else .name acc.reverse :: ts

/-- R79: the tokens of a line; `;` starts a comment. R79 does not say whether a blank must stand between a mnemonic and a
quoted operand: none has to here, so `DATA'c'` and `DATAS"s"` are read (DESIGN CHOICE, notes/assumptions/7.md). -/
def lexLine : LexMode → List Char → Option (List Token)
  | .plain acc, [] => some (flushName acc [])
  | .plain acc, c :: cs =>
    if c = ';' then some (flushName acc [])
    else if isBlank c then (lexLine (.plain []) cs).map (flushName acc)
    else if c = ',' then (lexLine (.plain []) cs).map fun ts => flushName acc (.comma :: ts)
    else if c = apostrophe then (lexLine .charOpen cs).map (flushName acc)
    else if c = doubleQuote then (lexLine (.quoted []) cs).map (flushName acc)
    else lexLine (.plain (c :: acc)) cs
  | .quoted _, [] => none
  | .quoted acc, c :: cs =>
    if c = doubleQuote then (lexLine (.plain []) cs).map fun ts => .str acc.reverse :: ts
    else lexLine (.quoted (c :: acc)) cs
  | .charOpen, [] => none
  | .charOpen, c :: cs => lexLine (.charBody c) cs
  | .charBody _, [] => none
  | .charBody d, c :: cs =>
    if c = apostrophe then (lexLine (.plain []) cs).map fun ts => .chr d :: ts else none

/-- The value of a digit in base 10 or 16. -/
def digitValue (base : Nat) (c : Char) : Option Nat :=
  let v := if '0' ≤ c ∧ c ≤ '9' then c.toNat - '0'.toNat
    else if 'A' ≤ c ∧ c ≤ 'F' then c.toNat - 'A'.toNat + 10
    else if 'a' ≤ c ∧ c ≤ 'f' then c.toNat - 'a'.toNat + 10
    else 16
  if v < base then some v else none

/-- A non-empty numeral, most significant digit first. -/
def parseDigits (base : Nat) (cs : List Char) : Option Nat :=
  if cs.isEmpty then none
  else cs.foldlM (fun n c => (digitValue base c).map fun d => n * base + d) 0

/-- R79: "byte = 0x00..0xFF, a decimal 0..255, or a character 'c'". The range is `AsmByte.wellFormed`'s. -/
def parseByte : Token → Option AsmByte
  | .chr c => some (.chr c)
  | .name ('0' :: 'x' :: ds) => (parseDigits 16 ds).map .num
  | .name ds => (parseDigits 10 ds).map .num
  | _ => none

/-- One or more bytes with commas between them. -/
def parseBytes : List Token → Option (List AsmByte)
  | [t] => (parseByte t).map fun b => [b]
  | t :: .comma :: ts =>
    match parseByte t, parseBytes ts with
    | some b, some bs => some (b :: bs)
    | _, _ => none
  | _ => none

/-- R79: `STANDARD | URL_SAFE`. -/
def parseAlph (cs : List Char) : Option Alphabet :=
  if cs = "STANDARD".toList then some .standard
  else if cs = "URL_SAFE".toList then some .urlSafe
  else none

/-- R79: `[, STRICT]`; omitted means 0. -/
def parseStrict : List Token → Option Bool
  | [] => some false
  | [.comma, .name cs] => if cs = "STRICT".toList then some true else none
  | _ => none

/-- R79: the operands of `CMD`. -/
def parseCmd : List Token → Option AsmLine
  | .name op :: .comma :: .name alph :: rest =>
    match parseAlph alph, parseStrict rest with
    | some a, some s =>
      if op = "ENCODE".toList then some (.cmdEncode a s)
      else if op = "DECODE".toList then some (.cmdDecode a s)
      else none
    | _, _ => none
  | _ => none

/-- R80: the operands of `ENCODE`: the alphabet, then any number of bytes. -/
def parseEncode : List Token → Option AsmLine
  | [.name alph] => (parseAlph alph).map fun a => .encode a []
  | .name alph :: .comma :: ts =>
    match parseAlph alph, parseBytes ts with
    | some a, some bs => some (.encode a bs)
    | _, _ => none
  | _ => none

/-- R80: the operands of `DECODE`: the alphabet, then a string. -/
def parseDecode : List Token → Option AsmLine
  | [.name alph, .comma, .str cs] => (parseAlph alph).map fun a => .decode a cs
  | _ => none

/-- R79, R80: the statements that are one name. -/
def parseBare (op : List Char) : Option AsmLine :=
  if op = "END".toList then some .endInput
  else if op = "ENC.STD".toList then some .encStd
  else if op = "ENC.URL".toList then some .encUrl
  else if op = "DEC.STD".toList then some .decStd
  else if op = "DEC.URL".toList then some .decUrl
  else if op = "DEC.STD.LAX".toList then some .decStdLax
  else if op = "DEC.URL.LAX".toList then some .decUrlLax
  else none

/-- R79, R80: one line of tokens. -/
def parseTokens : List Token → Option AsmLine
  | [] => some .blank
  | [.name op] => parseBare op
  | .name op :: t :: rest =>
    if op = "CMD".toList then parseCmd (t :: rest)
    else if op = "DATA".toList then
      match rest with
      | [] => (parseByte t).map .data
      | _ => none
    else if op = "DATAS".toList then
      match t, rest with
      | .str cs, [] => some (.datas cs)
      | _, _ => none
    else if op = "DATAB".toList then (parseBytes (t :: rest)).map .datab
    else if op = "ENCODE".toList then parseEncode (t :: rest)
    else if op = "DECODE".toList then parseDecode (t :: rest)
    else none
  | _ => none

/-- R79: the statement on one line of source. -/
def parseLine (line : List Char) : Option AsmLine := (lexLine (.plain []) line).bind parseTokens

/-- R79, R80: the transactions of one line of source; `none` where the assembler rejects it. -/
def assembleLine (line : List Char) : Option (List Instr) := (parseLine line).bind expand

/-- R79: the transactions of a source, one statement a line, in order. -/
def assemble : List (List Char) → Option (List Instr)
  | [] => some []
  | line :: lines =>
    match assembleLine line, assemble lines with
    | some is, some rest => some (is ++ rest)
    | _, _ => none

end Sys2Proof.Machine
end

