-- ==== Sys2Proof/Machine/Platform.lean ====
section
/-! DEFINITION. Runs of one block, and a platform with several instances of it (60_exceptions.md R162). -/

namespace Sys2Proof.Machine

/-- `n` steps of one block, stopping at a refusal. -/
def runSteps : Nat → State → Host.Outcome State Fault Refusal
  | 0, s => .next s
  | n + 1, s =>
    match step s with
    | .next t => runSteps n t
    | .fault f => .fault f
    | .refused r => .refused r

/-- R162: the instances of a platform, each with all its state and its own port. -/
abbrev Platform := List State

/-- Instance `k` takes one step; a platform without that instance stays as it is. -/
def stepInstance (k : Nat) (p : Platform) : Host.Outcome Platform Fault Refusal :=
  match p[k]? with
  | none => .next p
  | some s =>
    match step s with
    | .next t => .next (p.set k t)
    | .fault f => .fault f
    | .refused r => .refused r

end Sys2Proof.Machine
end

