-- ==== Sys2Proof/Machine/Codec.lean ====
section
/-! DEFINITION. The whole-input functions of the spec, which no transaction calls: `Encode` (41_encoder.md R106), `Decode`
(42_decoder.md R129) with what it had appended and read when it returned (R130), `strip` (R133), and the transactions of one
operation (30_encoding.md R80). -/

namespace Sys2Proof.Machine

/-- R106: `Encode(b, A)`, group by group and then the padded tail. -/
def encodeAll (a : Alphabet) : List Byte → List Byte
  | [] => []
  | [b0] => tailChars1 a (pack b0 0#8 0#8)
  | [b0, b1] => tailChars2 a (pack b0 b1 0#8)
  | b0 :: b1 :: b2 :: rest => groupChars a (pack b0 b1 b2) ++ encodeAll a rest

/-- What `Decode` leaves when it returns: the error (`none` for `Ok`), the bytes it had appended, and how many units it
had read. -/
structure DecodeResult where
  err : ErrCode
  out : List Byte
  consumed : Nat
  deriving DecidableEq, Repr

/-- R129: the bytes of a quantum that stops with `k` sextets, or `none` for the malformed `k = 1`. -/
def stopBytes (k : Fin 4) (q : Word24) : Option (List Byte) :=
  match k with
  | 0 => some []
  | 1 => none
  | 2 => some [byteHigh q]
  | 3 => some [byteHigh q, byteMid q]

/-- R129: the loop over the units, `n` of them read so far. -/
def decodeLoop (a : Alphabet) (strict : Bool) (k : Fin 4) (q : Word24) (out : List Byte) (n : Nat) :
    List Byte → DecodeResult
  | [] =>
    match stopBytes k q with
    | some us => ⟨.none, out ++ us, n⟩
    | none => ⟨.truncatedInput, out, n⟩
  | u :: units =>
    match classify a u with
    | .data v =>
      if k = 3 then decodeLoop a strict 0 0#24 (out ++ quantumBytes (insertSextet q k v)) (n + 1) units
      else decodeLoop a strict (k + 1) (insertSextet q k v) out (n + 1) units
    | c =>
      if c = .other ∧ strict = true then ⟨.invalidCharacter, out, n + 1⟩
      else
        match stopBytes k q with
        | some us => decodeLoop a strict 0 0#24 (out ++ us) (n + 1) units
        | none => ⟨.truncatedInput, out, n + 1⟩

/-- R129 with what R130 adds: `Decode(t, A, S)`. -/
def decodeRun (a : Alphabet) (strict : Bool) (t : List Byte) : DecodeResult :=
  decodeLoop a strict 0 0#24 [] 0 t

/-- R129: `Decode(t, A, S)`, `Ok(bytes)` or `Error(code)`. -/
def decodeAll (a : Alphabet) (strict : Bool) (t : List Byte) : Except ErrCode (List Byte) :=
  match (decodeRun a strict t).err with
  | .none => .ok (decodeRun a strict t).out
  | e => .error e

/-- R133: `strip`, the sequence without its trailing `=` units. -/
def stripPad (t : List Byte) : List Byte := t.rdropWhile isPad

/-- R80: the port events of one operation, CMD, one DATA per unit, END. -/
def operationEvents (cmd : Instr) (units : List Byte) : List PortEvent :=
  (cmd :: units.map Instr.data ++ [Instr.endInput]).map fun i => .word (encode i)

end Sys2Proof.Machine
end

