-- ==== Sys2Proof/Safety.lean ====
section
/-! DEFINITION. The terms claims use: when an operation has ended and with what result (40_control.md R98), numerals as
the assembler's source writes them (30_encoding.md R79), and the invariant of the block's registers (10_state.md R20, R23, R24, R26, R27, R28, R29). -/

namespace Sys2Proof.Machine

/-- R98: an operation has ended exactly when PHASE = DONE. -/
def State.ended (s : State) : Bool := s.phase == .done

/-- R98: the result of an ended operation: OUT when ERR = 0, else the error. -/
def State.result (s : State) : Except ErrCode (List Byte) :=
  match s.err with
  | .none => .ok s.out
  | e => .error e

/-- R79: a decimal numeral as it stands in a line of assembler source, most significant digit first. -/
def decimalText (ds : List (Fin 10)) : List Char := ds.map fun d => Nat.digitChar d.val

/-- R79: the digits of a hexadecimal numeral as the spec writes them, in capitals. -/
def hexText (ds : List (Fin 16)) : List Char := ds.map fun d => (Nat.digitChar d.val).toUpper

/-- The number that a numeral in base `b` stands for, most significant digit first. -/
def numeralValue {b : Nat} (ds : List (Fin b)) : Nat := Nat.ofDigits b (ds.reverse.map Fin.val)

/-- R79, R80: decimal numerals with commas between them. -/
def decimalListText (nss : List (List (Fin 10))) : List Char :=
  [',', ' '].intercalate (nss.map decimalText)

/-- R55: `n` more units stay within the output capacity. -/
def State.room (s : State) (n : Nat) : Prop := ∀ c, s.outCap = some c → s.out.length + n ≤ c.val

/-- R28: `EG[23 - 8*EC : 0] = 0`: shifting out the bytes held leaves nothing. -/
abbrev GroupClean (s : State) : Prop := s.eg <<< (8 * s.ec.val) = 0#24

/-- R29: bits below the sextets held are zero. -/
abbrev QuantumClean (s : State) : Prop := s.dq <<< (6 * s.dk.val) = 0#24

/-- R23: `CFG[7:3]` is zero. -/
abbrev CfgClean (s : State) : Prop := s.cfg.extractLsb' 3 5 = 0#5

/-- R26: `OUT_CNT <= OUT_CAP` where `OUT_CAP` is finite. -/
abbrev CapacityKept (s : State) : Prop := capFits s.outCap s.out.length 0 = true

/-- R20, R27, R37, R153: what PHASE says of ERR and of the rest of the registers. -/
abbrev PhaseSound (s : State) : Prop :=
  (s.phase = .idle → s.cfg = 0#8 ∧ s.err = .none ∧ s.inCnt = 0#32 ∧ s.out = [] ∧ s.ec = 0 ∧ s.dk = 0) ∧
  (s.phase = .run → s.err = .none) ∧
  (s.phase = .drain → s.err ≠ .none) ∧
  (s.phase = .done → s.err = .none → s.ec = 0 ∧ s.dk = 0)

/-- R28, R29, R56, R100, R120: an operation leaves the other datapath's registers at zero, and an encode emits 7-bit
units, four at a time. -/
abbrev DatapathSound (s : State) : Prop :=
  (cfgOp s.cfg = .encode → s.dq = 0#24 ∧ s.dk = 0 ∧ s.out.length % 4 = 0 ∧ ∀ u ∈ s.out, u < 0x80#8) ∧
  (cfgOp s.cfg = .decode → s.eg = 0#24 ∧ s.ec = 0)

/-- R150: which operations can raise which error. -/
abbrev ErrSound (s : State) : Prop :=
  (s.err = .truncatedInput → cfgOp s.cfg = .decode) ∧
  (s.err = .invalidCharacter → cfgOp s.cfg = .decode ∧ cfgStrict s.cfg = true)

/-- The invariant of the block: it holds after reset and every step keeps it. -/
abbrev State.Inv (s : State) : Prop :=
  GroupClean s ∧ QuantumClean s ∧ CfgClean s ∧ CapacityKept s ∧ PhaseSound s ∧ DatapathSound s ∧ ErrSound s

end Sys2Proof.Machine
end

