-- ==== Sys2Proof/Certificates/Slice0/Obligations.lean ====
section
/-! DEFINITION. The statements for the provers. Each docstring names the rule of spec/ it formalises. Where a rule is the
spec's own decision the statement is about this spec. `s.room n` says that `n` more units fit in OUT_CAP. -/

section Statements

open Sys2Proof Sys2Proof.Machine

/-! ### Encoding -/

/-- R76, R78: the decoder and the encoder agree on every transaction and every 10-bit word, both ways. -/
def Obligations.DecodeAndEncodeAgree : Prop :=
  ∀ (i : Instr) (t : TWord), decode t = .ok i ↔ encode i = t

/-- R76: the decoder, case by case, over every 10-bit word. -/
def Obligations.DecodeFollowsTheCases : Prop :=
  ∀ t : TWord,
    (t.extractLsb' 8 2 = 0#2 → t.extractLsb' 3 5 ≠ 0#5 → decode t = .error .reservedCmdBits) ∧
    (t.extractLsb' 8 2 = 0#2 → t.extractLsb' 3 5 = 0#5 → t.getLsbD 0 = false →
      decode t = .ok (.cmdEncode (if t.getLsbD 1 then .urlSafe else .standard) (t.getLsbD 2))) ∧
    (t.extractLsb' 8 2 = 0#2 → t.extractLsb' 3 5 = 0#5 → t.getLsbD 0 = true →
      decode t = .ok (.cmdDecode (if t.getLsbD 1 then .urlSafe else .standard) (t.getLsbD 2))) ∧
    (t.extractLsb' 8 2 = 1#2 → decode t = .ok (.data (t.extractLsb' 0 8))) ∧
    (t.extractLsb' 8 2 = 2#2 → t.extractLsb' 0 8 ≠ 0#8 → decode t = .error .endPayload) ∧
    (t.extractLsb' 8 2 = 2#2 → t.extractLsb' 0 8 = 0#8 → decode t = .ok .endInput) ∧
    (t.extractLsb' 8 2 = 3#2 → decode t = .error .reservedKind)

/-- R72, R73, R74: words written out from the spec, and what each decodes to. -/
def Obligations.WrittenOutWordsDecode : Prop :=
  decode 0x000#10 = .ok (.cmdEncode .standard false) ∧ decode 0x004#10 = .ok (.cmdEncode .standard true) ∧
  decode 0x002#10 = .ok (.cmdEncode .urlSafe false) ∧ decode 0x006#10 = .ok (.cmdEncode .urlSafe true) ∧
  decode 0x001#10 = .ok (.cmdDecode .standard false) ∧ decode 0x005#10 = .ok (.cmdDecode .standard true) ∧
  decode 0x003#10 = .ok (.cmdDecode .urlSafe false) ∧ decode 0x007#10 = .ok (.cmdDecode .urlSafe true) ∧
  decode 0x100#10 = .ok (.data 0x00#8) ∧ decode 0x14D#10 = .ok (.data 0x4D#8) ∧
  decode 0x1FF#10 = .ok (.data 0xFF#8) ∧ decode 0x200#10 = .ok .endInput

/-- R75: 265 of the 1024 words are legal, and the three ranges of the others are refused by name in every state. That
a reserved CMD word in RUN or DRAIN is ReservedCmdBits and not CmdWhileBusy is the model's reading (DEDUCED,
notes/assumptions/11.md) of R76: "It is the only decode step; 40_control.md then checks the word against PHASE." -/
def Obligations.ReservedWordsAreRefusedByRange : Prop :=
  ((List.range 1024).filter fun n => (decode (BitVec.ofNat 10 n)).isOk).length = 265 ∧
  ∀ (n : Nat) (s : State) (rest : List PortEvent), s.pending = .word (BitVec.ofNat 10 n) :: rest →
    (0x008 ≤ n → n ≤ 0x0FF → step s = .refused .reservedCmdBits) ∧
    (0x201 ≤ n → n ≤ 0x2FF → step s = .refused .endPayload) ∧
    (0x300 ≤ n → n ≤ 0x3FF → step s = .refused .reservedKind)

/-- R78: the opcode map, and that exactly one row matches each legal word and none matches another. -/
def Obligations.OneRowMatchesEachLegalWord : Prop :=
  (opcodeMap.map fun r => (r.mnemonic, r.pattern.toNat, r.mask.toNat)) =
    [("CMD.ENCODE", 0x000, 0x3F9), ("CMD.DECODE", 0x001, 0x3F9), ("DATA", 0x100, 0x300), ("END", 0x200, 0x3FF)] ∧
  ∀ t : TWord,
    (∀ i, decode t = .ok i → (opcodeMap.filter fun r => r.fits t).map OpRow.mnemonic = [i.mnemonic]) ∧
    (∀ e, decode t = .error e → opcodeMap.filter (fun r => r.fits t) = [])

/-- R80: the expansion of every pseudo-instruction. -/
def Obligations.PseudoInstructionsExpand : Prop :=
  (expansion .encStd).map encode = [0x000#10] ∧ (expansion .encUrl).map encode = [0x002#10] ∧
  (expansion .decStd).map encode = [0x005#10] ∧ (expansion .decUrl).map encode = [0x007#10] ∧
  (expansion .decStdLax).map encode = [0x001#10] ∧ (expansion .decUrlLax).map encode = [0x003#10] ∧
  expansion (.datas []) = [] ∧
  (∀ c cs, expansion (.datas (c :: cs)) = .data (BitVec.ofNat 8 c.toNat) :: expansion (.datas cs)) ∧
  expansion (.datab []) = [] ∧
  (∀ b bs, expansion (.datab (b :: bs)) = expansion (.data b) ++ expansion (.datab bs)) ∧
  (∀ a bs, expansion (.encode a bs) =
    expansion (.cmdEncode a false) ++ expansion (.datab bs) ++ expansion .endInput) ∧
  (∀ a cs, expansion (.decode a cs) =
    expansion (.cmdDecode a true) ++ expansion (.datas cs) ++ expansion .endInput)

/-- R79: which lines the assembler rejects and what the text forms assemble to. `DATA <byte>`, `DATAB` and `ENCODE`
take every number in 0..255 and are rejected with a byte above 255; the forms of `CMD`, `DATA` and `END` assemble to
exactly their transactions; and the words that lines of one transaction make are the 265 legal words. How many digits
a numeral may have, that a character has to be ASCII and where blanks may stand are the model's choice
(notes/assumptions/7.md). -/
def Obligations.AssemblerMakesOnlyLegalWords : Prop :=
  (assembleLine "CMD ENCODE, STANDARD".toList = some [.cmdEncode .standard false] ∧
   assembleLine "CMD ENCODE, STANDARD, STRICT".toList = some [.cmdEncode .standard true] ∧
   assembleLine "CMD ENCODE, URL_SAFE".toList = some [.cmdEncode .urlSafe false] ∧
   assembleLine "CMD ENCODE, URL_SAFE, STRICT".toList = some [.cmdEncode .urlSafe true] ∧
   assembleLine "CMD DECODE, STANDARD".toList = some [.cmdDecode .standard false] ∧
   assembleLine "CMD DECODE, STANDARD, STRICT".toList = some [.cmdDecode .standard true] ∧
   assembleLine "CMD DECODE, URL_SAFE".toList = some [.cmdDecode .urlSafe false] ∧
   assembleLine "CMD DECODE, URL_SAFE, STRICT".toList = some [.cmdDecode .urlSafe true] ∧
   assembleLine "END".toList = some [.endInput]) ∧
  (∀ ds : List (Fin 10), ds ≠ [] →
    assembleLine ("DATA ".toList ++ decimalText ds) =
      if numeralValue ds ≤ 255 then some [.data (BitVec.ofNat 8 (numeralValue ds))] else none) ∧
  (∀ ds : List (Fin 16), ds ≠ [] →
    assembleLine ("DATA 0x".toList ++ hexText ds) =
      if numeralValue ds ≤ 255 then some [.data (BitVec.ofNat 8 (numeralValue ds))] else none) ∧
  (∀ c : Char,
    assembleLine ("DATA ".toList ++ [Char.ofNat 39, c, Char.ofNat 39]) =
      if c.toNat < 128 then some [.data (BitVec.ofNat 8 c.toNat)] else none) ∧
  (∀ nss : List (List (Fin 10)), nss ≠ [] → (∀ ds ∈ nss, ds ≠ []) →
    assembleLine ("DATAB ".toList ++ decimalListText nss) =
      (if ∀ ds ∈ nss, numeralValue ds ≤ 255 then
        some (nss.map fun ds => .data (BitVec.ofNat 8 (numeralValue ds)))
      else none) ∧
    assembleLine ("ENCODE STANDARD, ".toList ++ decimalListText nss) =
      (if ∀ ds ∈ nss, numeralValue ds ≤ 255 then
        some (.cmdEncode .standard false :: nss.map (fun ds => .data (BitVec.ofNat 8 (numeralValue ds))) ++ [.endInput])
      else none) ∧
    assembleLine ("ENCODE URL_SAFE, ".toList ++ decimalListText nss) =
      (if ∀ ds ∈ nss, numeralValue ds ≤ 255 then
        some (.cmdEncode .urlSafe false :: nss.map (fun ds => .data (BitVec.ofNat 8 (numeralValue ds))) ++ [.endInput])
      else none)) ∧
  (∀ n : Nat, n ≤ 255 → expand (.data (.num n)) = some [.data (BitVec.ofNat 8 n)]) ∧
  (∀ (n : Nat) (a : Alphabet) (bs : List AsmByte), 255 < n →
    expand (.data (.num n)) = none ∧
    (.num n ∈ bs → expand (.datab bs) = none ∧ expand (.encode a bs) = none)) ∧
  (∀ line comment : List Char, Char.ofNat 39 ∉ line → Char.ofNat 34 ∉ line →
    assembleLine (line ++ ';' :: comment) = assembleLine line) ∧
  (∀ lines : List (List Char), assemble lines = (lines.mapM assembleLine).map List.flatten) ∧
  ∀ t : TWord, legalWord t = true ↔ ∃ line i, assembleLine line = some [i] ∧ encode i = t

/-! ### The step, the host port and reset -/

/-- R59, R70: when the next event at the port is a word that decodes to `i`, the step is `exec i` on the state without
that event. -/
def Obligations.StepRunsTheDecodedTransaction : Prop :=
  ∀ (s : State) (w : TWord) (i : Instr) (rest : List PortEvent),
    s.pending = .word w :: rest → decode w = .ok i → step s = exec i { s with pending := rest }

/-- R164: with nothing at the port the block keeps all its state. The step that stutters is the model's form of it
(notes/assumptions/2.md). -/
def Obligations.WithNothingAtThePortStateIsKept : Prop :=
  ∀ s : State, s.pending = [] → step s = .next s

/-- R39, R97: the register and output reads, what each returns, which are refused, and that the block is unchanged.
That a read's value is appended to `answers` is the model's form of returning it (notes/assumptions/3.md). The zeros
of register 1's bits [7:3] in every state are the model's reading of R23 (DEDUCED, notes/assumptions/8.md). An output
unit is read up to the true length of OUT, which register 3 gives modulo 2^32 (notes/assumptions/14.md). -/
def Obligations.HostReadsChangeNothing : Prop :=
  ∀ (s : State) (rest : List PortEvent),
    (s.pending = .readReg 0 :: rest →
      step s = .next { s with pending := rest, answers := s.answers ++ [.byte s.status] }) ∧
    (s.pending = .readReg 1 :: rest →
      step s = .next { s with pending := rest, answers := s.answers ++ [.byte (0#5 ++ s.cfg.extractLsb' 0 3)] }) ∧
    (s.pending = .readReg 2 :: rest →
      step s = .next { s with pending := rest, answers := s.answers ++ [.count s.inCnt] }) ∧
    (s.pending = .readReg 3 :: rest →
      step s = .next { s with pending := rest, answers := s.answers ++ [.count (BitVec.ofNat 32 s.out.length)] }) ∧
    (∀ n, 4 ≤ n → s.pending = .readReg n :: rest → step s = .refused .badRegRead) ∧
    (∀ i u, s.out[i]? = some u → s.pending = .readOut i :: rest →
      step s = .next { s with pending := rest, answers := s.answers ++ [.byte u] }) ∧
    (∀ i, s.out.length ≤ i → s.pending = .readOut i :: rest → step s = .refused .badOutRead)

/-- R24 (the spec marks `No other value occurs` as derived): the fields of STATUS in every state, and its nine legal
values in every state the invariant allows. -/
def Obligations.StatusIsTheViewOfPhaseAndErr : Prop :=
  (∀ s : State,
    s.status.getLsbD 0 = (s.phase == .run || s.phase == .drain) ∧
    s.status.getLsbD 1 = (s.phase == .done) ∧
    s.status.getLsbD 2 = (s.phase == .done && s.err == .none) ∧
    s.status.extractLsb' 3 2 = s.err.code ∧
    s.status.extractLsb' 5 3 = 0#3 ∧
    regRead 0 s = some (.byte s.status)) ∧
  ∀ s : State, s.Inv →
    (s.phase = .idle → s.status = 0x00#8) ∧
    (s.phase = .run → s.status = 0x01#8) ∧
    (s.phase = .drain → s.status = 0x09#8 ∨ s.status = 0x11#8 ∨ s.status = 0x19#8) ∧
    (s.phase = .done → s.status = 0x06#8 ∨ s.status = 0x0A#8 ∨ s.status = 0x12#8 ∨ s.status = 0x1A#8)

/-- R37: every item of the state after reset, whatever the capacity. The first clause, that the capacity of
`State.reset` is the open parameter of R6, is the model's choice (DESIGN CHOICE, notes/assumptions/1.md). -/
def Obligations.StateAfterReset : Prop :=
  State.reset = State.resetWith Config.outCap ∧
  ∀ cap : Capacity,
    (State.resetWith cap).phase = .idle ∧ (State.resetWith cap).status = 0x00#8 ∧
    (State.resetWith cap).cfg = 0x00#8 ∧ (State.resetWith cap).err = .none ∧
    (State.resetWith cap).inCnt = 0#32 ∧ (State.resetWith cap).out = [] ∧ (State.resetWith cap).outCnt = 0#32 ∧
    (State.resetWith cap).eg = 0#24 ∧ (State.resetWith cap).ec = 0 ∧
    (State.resetWith cap).dq = 0#24 ∧ (State.resetWith cap).dk = 0

/-- R170, R20: RESET between any two transactions sets every register, and nothing else takes the block back to IDLE.
That the port's queue, its record and the capacity stay is the model's choice (notes/assumptions/5.md). -/
def Obligations.ResetSetsEveryRegister : Prop :=
  (∀ (s : State) (rest : List PortEvent), s.pending = .reset :: rest →
    step s = .next
      { phase := .idle, cfg := 0x00#8, err := .none, inCnt := 0#32, out := [], eg := 0#24, ec := 0, dq := 0#24, dk := 0,
        outCap := s.outCap, pending := rest, answers := s.answers }) ∧
  ∀ s t : State, s.phase ≠ .idle → step s = .next t → t.phase = .idle →
    s.pending.head? = some .reset

/-- R171: right after reset a DATA and an END are refused and every CMD is accepted. -/
def Obligations.AfterResetOnlyCmdIsAccepted : Prop :=
  ∀ (cap : Capacity) (u : Byte) (a : Alphabet) (st : Bool),
    (State.resetWith cap).phase = .idle ∧
    exec (.data u) (State.resetWith cap) = .refused .dataWhileIdle ∧
    exec .endInput (State.resetWith cap) = .refused .endWhileIdle ∧
    (∃ t, exec (.cmdEncode a st) (State.resetWith cap) = .next t ∧ t.phase = .run) ∧
    (∃ t, exec (.cmdDecode a st) (State.resetWith cap) = .next t ∧ t.phase = .run)

/-- R96: every refusal by its name, and that a refused run stays refused. That a reserved word is refused under the
name of its encoding in RUN and DRAIN too is the model's reading of R76 (DEDUCED, notes/assumptions/11.md), and an
output read is bounded by the true length of OUT (notes/assumptions/14.md). -/
def Obligations.RefusalsByName : Prop :=
  (∀ (s : State) (w : TWord) (e : DecodeError) (rest : List PortEvent),
    s.pending = .word w :: rest → decode w = .error e →
      step s = .refused (match e with
        | .reservedCmdBits => .reservedCmdBits
        | .endPayload => .endPayload
        | .reservedKind => .reservedKind)) ∧
  (∀ (s : State) (a : Alphabet) (st : Bool), s.phase = .run ∨ s.phase = .drain →
    exec (.cmdEncode a st) s = .refused .cmdWhileBusy ∧ exec (.cmdDecode a st) s = .refused .cmdWhileBusy) ∧
  (∀ (s : State) (u : Byte), s.phase = .idle ∨ s.phase = .done →
    exec (.data u) s = .refused .dataWhileIdle ∧ exec .endInput s = .refused .endWhileIdle) ∧
  (∀ (s : State) (n : Nat) (rest : List PortEvent), s.pending = .readReg n :: rest → 3 < n →
    step s = .refused .badRegRead) ∧
  (∀ (s : State) (i : Nat) (rest : List PortEvent), s.pending = .readOut i :: rest → s.out.length ≤ i →
    step s = .refused .badOutRead) ∧
  ∀ (s : State) (r : Refusal), step s = .refused r → ∀ n, runSteps (n + 1) s = .refused r

/-! ### CMD, and DATA and END after an error -/

/-- R90: CMD.ENCODE, its word, its effect in IDLE and DONE, its refusal in RUN and DRAIN, and that STRICT changes
nothing an encode does. -/
def Obligations.CmdEncodeStartsAnOperation : Prop :=
  (∀ a st : Bool, decode (0#7 ++ BitVec.ofBool st ++ BitVec.ofBool a ++ 0#1) =
    .ok (.cmdEncode (if a then .urlSafe else .standard) st)) ∧
  (∀ (s : State) (a : Alphabet) (st : Bool), s.phase = .idle ∨ s.phase = .done →
    exec (.cmdEncode a st) s = .next
      { s with
        cfg := 0#5 ++ BitVec.ofBool st ++ BitVec.ofBool (a == .urlSafe) ++ 0#1
        err := .none, inCnt := 0#32, out := [], eg := 0#24, ec := 0, dq := 0#24, dk := 0, phase := .run }) ∧
  (∀ (s t : State) (a : Alphabet) (st : Bool), exec (.cmdEncode a st) s = .next t → t.status = 0x01#8) ∧
  (∀ (s : State) (a : Alphabet) (st : Bool), s.phase = .run ∨ s.phase = .drain →
    exec (.cmdEncode a st) s = .refused .cmdWhileBusy) ∧
  ∀ (s t : State) (i : Instr), cfgOp s.cfg = .encode → ((∃ u, i = .data u) ∨ i = .endInput) → exec i s = .next t →
    exec i { s with cfg := s.cfg ^^^ 0x04#8 } = .next { t with cfg := t.cfg ^^^ 0x04#8 }

/-- R91: CMD.DECODE, its word, its effect in IDLE and DONE, and its refusal in RUN and DRAIN. -/
def Obligations.CmdDecodeStartsAnOperation : Prop :=
  (∀ a st : Bool, decode (0#7 ++ BitVec.ofBool st ++ BitVec.ofBool a ++ 1#1) =
    .ok (.cmdDecode (if a then .urlSafe else .standard) st)) ∧
  (∀ (s : State) (a : Alphabet) (st : Bool), s.phase = .idle ∨ s.phase = .done →
    exec (.cmdDecode a st) s = .next
      { s with
        cfg := 0#5 ++ BitVec.ofBool st ++ BitVec.ofBool (a == .urlSafe) ++ 1#1
        err := .none, inCnt := 0#32, out := [], eg := 0#24, ec := 0, dq := 0#24, dk := 0, phase := .run }) ∧
  (∀ (s t : State) (a : Alphabet) (st : Bool), exec (.cmdDecode a st) s = .next t → t.status = 0x01#8) ∧
  ∀ (s : State) (a : Alphabet) (st : Bool), s.phase = .run ∨ s.phase = .drain →
    exec (.cmdDecode a st) s = .refused .cmdWhileBusy

/-- 10_state.md's opening, R51, C5: an accepted CMD leaves the same state whatever the operation before it left. -/
def Obligations.CmdForgetsTheLastOperation : Prop :=
  ∀ (s s' t t' : State) (i : Instr), ((∃ a st, i = .cmdEncode a st) ∨ (∃ a st, i = .cmdDecode a st)) →
    s.outCap = s'.outCap → s.pending = s'.pending → s.answers = s'.answers →
    exec i s = .next t → exec i s' = .next t' → t = t'

/-- R94: DATA in DRAIN changes nothing. -/
def Obligations.DataInDrainChangesNothing : Prop :=
  ∀ (s : State) (u : Byte), s.phase = .drain → exec (.data u) s = .next s

/-- R95: END in DRAIN sets PHASE to DONE and nothing else, so STATUS = 0x02 | (ERR << 3) with OUT_VALID = 0. -/
def Obligations.EndInDrainOnlyCloses : Prop :=
  ∀ s : State, s.phase = .drain →
    exec .endInput s = .next { s with phase := .done } ∧
    (s.Inv → { s with phase := .done }.status = 0x02#8 ||| (s.err.code.setWidth 8 <<< 3) ∧
      { s with phase := .done }.outValid = false)

/-! ### The encoder -/

/-- R101, R52 (the spec marks the lanes of `b0 ++ b1 ++ b2` as derived): the four lanes of the group `b0 ++ b1 ++ b2`.
-/
def Obligations.SplitterLanes : Prop :=
  (∀ w : Word24, lane w 0 = w.extractLsb' 18 6 ∧ lane w 1 = w.extractLsb' 12 6 ∧
    lane w 2 = w.extractLsb' 6 6 ∧ lane w 3 = w.extractLsb' 0 6) ∧
  ∀ b0 b1 b2 : Byte,
    lane (b0 ++ b1 ++ b2) 0 = b0.extractLsb' 2 6 ∧
    lane (b0 ++ b1 ++ b2) 1 = b0.extractLsb' 0 2 ++ b1.extractLsb' 4 4 ∧
    lane (b0 ++ b1 ++ b2) 2 = b1.extractLsb' 0 4 ++ b2.extractLsb' 6 2 ∧
    lane (b0 ++ b1 ++ b2) 3 = b2.extractLsb' 0 6

/-- R103: DATA of an encode in RUN, for every EC, with the emission that fits and the one that does not. -/
def Obligations.DataOfAnEncode : Prop :=
  ∀ (s : State) (u : Byte), s.phase = .run → cfgOp s.cfg = .encode →
    (s.ec = 0 →
      exec (.data u) s = .next { s with inCnt := s.inCnt + 1#32, eg := u ++ 0#16, ec := 1 }) ∧
    (s.ec = 1 →
      exec (.data u) s = .next { s with inCnt := s.inCnt + 1#32, eg := s.eg.extractLsb' 16 8 ++ u ++ 0#8, ec := 2 }) ∧
    (s.ec = 2 → s.room 4 → ∀ w : Word24, w = s.eg.extractLsb' 8 16 ++ u →
      exec (.data u) s = .next
        { s with
          inCnt := s.inCnt + 1#32, eg := 0#24, ec := 0
          out := s.out ++
            [fwdLUT (cfgAlph s.cfg) (w.extractLsb' 18 6), fwdLUT (cfgAlph s.cfg) (w.extractLsb' 12 6),
             fwdLUT (cfgAlph s.cfg) (w.extractLsb' 6 6), fwdLUT (cfgAlph s.cfg) (w.extractLsb' 0 6)] }) ∧
    (s.ec = 2 → ¬ s.room 4 →
      exec (.data u) s = .next { s with inCnt := s.inCnt + 1#32, err := .allocationFailure, phase := .drain })

/-- R104: END of an encode in RUN, the padding logic, for every EC, and the zeros its partial lanes end with. -/
def Obligations.EndOfAnEncode : Prop :=
  ∀ s : State, s.phase = .run → cfgOp s.cfg = .encode →
    (s.ec = 0 → exec .endInput s = .next { s with phase := .done }) ∧
    (s.ec = 1 → s.room 4 →
      exec .endInput s = .next
        { s with
          phase := .done, eg := 0#24, ec := 0
          out := s.out ++
            [fwdLUT (cfgAlph s.cfg) (s.eg.extractLsb' 18 6), fwdLUT (cfgAlph s.cfg) (s.eg.extractLsb' 12 6),
             0x3D#8, 0x3D#8] }) ∧
    (s.ec = 2 → s.room 4 →
      exec .endInput s = .next
        { s with
          phase := .done, eg := 0#24, ec := 0
          out := s.out ++
            [fwdLUT (cfgAlph s.cfg) (s.eg.extractLsb' 18 6), fwdLUT (cfgAlph s.cfg) (s.eg.extractLsb' 12 6),
             fwdLUT (cfgAlph s.cfg) (s.eg.extractLsb' 6 6), 0x3D#8] }) ∧
    (s.ec ≠ 0 → ¬ s.room 4 →
      exec .endInput s = .next { s with phase := .done, err := .allocationFailure }) ∧
    (GroupClean s → s.ec = 1 → s.eg.extractLsb' 12 6 = s.eg.extractLsb' 16 2 ++ 0#4) ∧
    (GroupClean s → s.ec = 2 → s.eg.extractLsb' 6 6 = s.eg.extractLsb' 8 4 ++ 0#2)

/-- R111: in an encode no DATA or END raises an error other than AllocationFailure, and neither is refused in RUN. -/
def Obligations.EncodeRaisesOnlyAllocationFailure : Prop :=
  ∀ (s : State) (i : Instr), s.phase = .run → s.err = .none → cfgOp s.cfg = .encode →
    ((∃ u, i = .data u) ∨ i = .endInput) →
    ∃ t, exec i s = .next t ∧ (t.err = .none ∨ t.err = .allocationFailure)

/-! ### The decoder -/

/-- R121 (which the spec marks as derived from R33 and R34): the class of every unit, and the units the rule lists as
OTHER. -/
def Obligations.UnitClasses : Prop :=
  (∀ (a : Alphabet) (u : Byte) (v : Sextet), classify a u = .data v ↔ revLUT a u = some v) ∧
  (∀ (a : Alphabet) (u : Byte), classify a u = .pad ↔ u = 0x3D#8) ∧
  (∀ (a : Alphabet) (u : Byte), classify a u = .other ↔ revLUT a u = none ∧ u ≠ 0x3D#8) ∧
  (∀ (a : Alphabet) (u : Byte), 0x7F#8 ≤ u ∨ u ≤ 0x20#8 → classify a u = .other) ∧
  classify .standard 0x2D#8 = .other ∧ classify .standard 0x5F#8 = .other ∧
  classify .urlSafe 0x2B#8 = .other ∧ classify .urlSafe 0x2F#8 = .other

/-- R123, R53 (the spec marks the byte fields as derived): the four sextets put in place one after another, and the
three bytes of the result. -/
def Obligations.ReassemblerFields : Prop :=
  (∀ (q : Word24) (k : Fin 4) (v : Sextet), insertSextet q k v = q ||| (v.setWidth 24 <<< (18 - 6 * k.val))) ∧
  ∀ (s0 s1 s2 s3 : Sextet) (q : Word24),
    q = insertSextet (insertSextet (insertSextet (insertSextet 0#24 0 s0) 1 s1) 2 s2) 3 s3 →
    q.extractLsb' 18 6 = s0 ∧ q.extractLsb' 12 6 = s1 ∧ q.extractLsb' 6 6 = s2 ∧ q.extractLsb' 0 6 = s3 ∧
    q.extractLsb' 16 8 = s0 ++ s1.extractLsb' 4 2 ∧
    q.extractLsb' 8 8 = s1.extractLsb' 0 4 ++ s2.extractLsb' 2 4 ∧
    q.extractLsb' 0 8 = s2.extractLsb' 0 2 ++ s3

/-- R125, class DATA(v): FILLING(k) goes to FILLING(k+1); the fourth sextet emits three bytes or, where they do not
fit, raises AllocationFailure. -/
def Obligations.DataCharacterOfADecode : Prop :=
  ∀ (s : State) (u : Byte) (v : Sextet), s.phase = .run → cfgOp s.cfg = .decode →
    revLUT (cfgAlph s.cfg) u = some v →
    (∀ k : Fin 4, s.dk = k → k ≠ 3 →
      exec (.data u) s = .next
        { s with inCnt := s.inCnt + 1#32, dq := s.dq ||| (v.setWidth 24 <<< (18 - 6 * k.val)), dk := k + 1 }) ∧
    (s.dk = 3 → s.room 3 → ∀ q : Word24, q = s.dq ||| v.setWidth 24 →
      exec (.data u) s = .next
        { s with
          inCnt := s.inCnt + 1#32, dq := 0#24, dk := 0
          out := s.out ++ [q.extractLsb' 16 8, q.extractLsb' 8 8, q.extractLsb' 0 8] }) ∧
    (s.dk = 3 → ¬ s.room 3 →
      exec (.data u) s = .next { s with inCnt := s.inCnt + 1#32, err := .allocationFailure, phase := .drain })

/-- R122, R124: a stop unit, the padding symbol or in lenient mode any unit outside the alphabet, for every DK. -/
def Obligations.StopUnitOfADecode : Prop :=
  ∀ (s : State) (u : Byte), s.phase = .run → cfgOp s.cfg = .decode →
    (u = 0x3D#8 ∨ (revLUT (cfgAlph s.cfg) u = none ∧ cfgStrict s.cfg = false)) →
    (s.dk = 0 → exec (.data u) s = .next { s with inCnt := s.inCnt + 1#32 }) ∧
    (s.dk = 1 →
      exec (.data u) s = .next { s with inCnt := s.inCnt + 1#32, err := .truncatedInput, phase := .drain }) ∧
    (s.dk = 2 → s.room 1 →
      exec (.data u) s = .next
        { s with
          inCnt := s.inCnt + 1#32, dq := 0#24, dk := 0, out := s.out ++ [s.dq.extractLsb' 16 8] }) ∧
    (s.dk = 3 → s.room 2 →
      exec (.data u) s = .next
        { s with
          inCnt := s.inCnt + 1#32, dq := 0#24, dk := 0
          out := s.out ++ [s.dq.extractLsb' 16 8, s.dq.extractLsb' 8 8] }) ∧
    (s.dk = 2 → ¬ s.room 1 →
      exec (.data u) s = .next { s with inCnt := s.inCnt + 1#32, err := .allocationFailure, phase := .drain }) ∧
    (s.dk = 3 → ¬ s.room 2 →
      exec (.data u) s = .next { s with inCnt := s.inCnt + 1#32, err := .allocationFailure, phase := .drain })

/-- R151: in strict mode a unit outside the alphabet that is not the padding symbol raises InvalidCharacter at every
DK, DK = 1 among them, and nothing else raises it. -/
def Obligations.InvalidCharacterExactly : Prop :=
  ErrCode.code .invalidCharacter = 1#2 ∧
  ∀ (s : State) (u : Byte), s.phase = .run → s.err = .none →
    (cfgOp s.cfg = .decode → cfgStrict s.cfg = true → revLUT (cfgAlph s.cfg) u = none → u ≠ 0x3D#8 →
      exec (.data u) s = .next { s with inCnt := s.inCnt + 1#32, err := .invalidCharacter, phase := .drain }) ∧
    (∀ t, exec (.data u) s = .next t → t.err = .invalidCharacter →
      cfgOp s.cfg = .decode ∧ cfgStrict s.cfg = true ∧ revLUT (cfgAlph s.cfg) u = none ∧ u ≠ 0x3D#8) ∧
    (∀ t, exec .endInput s = .next t → t.err ≠ .invalidCharacter)

/-- R126: END of a decode in RUN, for every DK. -/
def Obligations.EndOfADecode : Prop :=
  ∀ s : State, s.phase = .run → cfgOp s.cfg = .decode →
    (s.dk = 0 → exec .endInput s = .next { s with phase := .done }) ∧
    (s.dk = 1 → exec .endInput s = .next { s with phase := .done, err := .truncatedInput }) ∧
    (s.dk = 2 → s.room 1 →
      exec .endInput s = .next
        { s with phase := .done, dq := 0#24, dk := 0, out := s.out ++ [s.dq.extractLsb' 16 8] }) ∧
    (s.dk = 3 → s.room 2 →
      exec .endInput s = .next
        { s with
          phase := .done, dq := 0#24, dk := 0
          out := s.out ++ [s.dq.extractLsb' 16 8, s.dq.extractLsb' 8 8] }) ∧
    (s.dk = 2 → ¬ s.room 1 → exec .endInput s = .next { s with phase := .done, err := .allocationFailure }) ∧
    (s.dk = 3 → ¬ s.room 2 → exec .endInput s = .next { s with phase := .done, err := .allocationFailure })

/-- R152: TruncatedInput is raised exactly by a stop unit, or END, of a decode with DK = 1. -/
def Obligations.TruncatedInputExactly : Prop :=
  ErrCode.code .truncatedInput = 2#2 ∧
  ∀ s : State, s.phase = .run → s.err = .none →
    (∀ (u : Byte) (t : State), exec (.data u) s = .next t →
      (t.err = .truncatedInput ↔ cfgOp s.cfg = .decode ∧ s.dk = 1 ∧
        (u = 0x3D#8 ∨ (revLUT (cfgAlph s.cfg) u = none ∧ cfgStrict s.cfg = false))) ∧
      t.inCnt = s.inCnt + 1#32) ∧
    (∀ t : State, exec .endInput s = .next t →
      (t.err = .truncatedInput ↔ cfgOp s.cfg = .decode ∧ s.dk = 1) ∧ t.inCnt = s.inCnt)

/-! ### The look-up tables -/

/-- R32: the table, value by value, in both alphabets. -/
def Obligations.AlphabetTable : Prop :=
  ((List.range 64).map fun n => fwdLUT .standard (BitVec.ofNat 6 n)) =
    "ABCDEFGHIJKLMNOPQRSTUVWXYZabcdefghijklmnopqrstuvwxyz0123456789+/".toList.map (fun c => BitVec.ofNat 8 c.toNat) ∧
  ((List.range 64).map fun n => fwdLUT .urlSafe (BitVec.ofNat 6 n)) =
    "ABCDEFGHIJKLMNOPQRSTUVWXYZabcdefghijklmnopqrstuvwxyz0123456789-_".toList.map (fun c => BitVec.ofNat 8 c.toNat)

/-- R33: `RevLUT(a, c)` is the `v` with `FwdLUT(a, v) = c`, INVALID where there is none; 64 codes are valid. -/
def Obligations.RevLUTInvertsFwdLUT : Prop :=
  (∀ (a : Alphabet) (c : Byte) (v : Sextet), revLUT a c = some v ↔ fwdLUT a v = c) ∧
  ∀ a : Alphabet,
    ((List.range 256).filter fun n => (revLUT a (BitVec.ofNat 8 n)).isSome).length = 64 ∧
    ((List.range 256).filter fun n => (revLUT a (BitVec.ofNat 8 n)).isNone).length = 192

/-- R35: the 64 symbols are distinct, the padding symbol is none of them, and the alphabets agree on 0..61. -/
def Obligations.TableInvariants : Prop :=
  (∀ (a : Alphabet) (v w : Sextet), fwdLUT a v = fwdLUT a w → v = w) ∧
  (∀ (a : Alphabet) (v : Sextet), fwdLUT a v ≠ 0x3D#8) ∧
  (∀ (a : Alphabet) (v : Sextet), revLUT a (fwdLUT a v) = some v) ∧
  (∀ a : Alphabet, revLUT a 0x3D#8 = none) ∧
  ∀ v : Sextet, v ≤ 61#6 → fwdLUT .standard v = fwdLUT .urlSafe v

/-! ### Emission and errors -/

/-- R55, R56: a DATA or END appends one whole emission that fits, 4 units in an encode and 1 to 3 in a decode, or
nothing. -/
def Obligations.EmissionIsAllOrNothing : Prop :=
  ∀ (s t : State) (i : Instr), ((∃ u, i = .data u) ∨ i = .endInput) → exec i s = .next t →
    t.out = s.out ∨
    ∃ us : List Byte, t.out = s.out ++ us ∧ s.room us.length ∧ t.err = s.err ∧ s.phase = .run ∧
      (cfgOp s.cfg = .encode → us.length = 4) ∧
      (cfgOp s.cfg = .decode → us.length = 1 ∨ us.length = 2 ∨ us.length = 3)

/-- R154: AllocationFailure is raised exactly by an emission that does not fit, by the transactions the rule lists. -/
def Obligations.AllocationFailureExactly : Prop :=
  ErrCode.code .allocationFailure = 3#2 ∧
  ∀ s : State, s.phase = .run → s.err = .none →
    (∀ (u : Byte) (t : State), exec (.data u) s = .next t →
      (t.err = .allocationFailure ↔
        (cfgOp s.cfg = .encode ∧ s.ec = 2 ∧ ¬ s.room 4) ∨
        (cfgOp s.cfg = .decode ∧ (∃ v, revLUT (cfgAlph s.cfg) u = some v) ∧ s.dk = 3 ∧ ¬ s.room 3) ∨
        (cfgOp s.cfg = .decode ∧
          (u = 0x3D#8 ∨ (revLUT (cfgAlph s.cfg) u = none ∧ cfgStrict s.cfg = false)) ∧
          ((s.dk = 3 ∧ ¬ s.room 2) ∨ (s.dk = 2 ∧ ¬ s.room 1)))) ∧
      (t.err = .allocationFailure → t.out = s.out) ∧ (s.outCap = none → t.err ≠ .allocationFailure)) ∧
    (∀ t : State, exec .endInput s = .next t →
      (t.err = .allocationFailure ↔
        (cfgOp s.cfg = .encode ∧ s.ec ≠ 0 ∧ ¬ s.room 4) ∨
        (cfgOp s.cfg = .decode ∧ ((s.dk = 3 ∧ ¬ s.room 2) ∨ (s.dk = 2 ∧ ¬ s.room 1)))) ∧
      (t.err = .allocationFailure → t.out = s.out) ∧ (s.outCap = none → t.err ≠ .allocationFailure))

/-- R153: an error is precise: the raising transaction writes ERR and PHASE, a DATA keeps its count, and nothing else
changes; and in DRAIN nothing is emitted. -/
def Obligations.ErrorsArePrecise : Prop :=
  (∀ (s t : State) (u : Byte), s.phase = .run → s.err = .none → exec (.data u) s = .next t → t.err ≠ .none →
    t = { s with err := t.err, phase := .drain, inCnt := s.inCnt + 1#32 }) ∧
  (∀ s t : State, s.phase = .run → s.err = .none → exec .endInput s = .next t → t.err ≠ .none →
    t = { s with err := t.err, phase := .done } ∧ t.outValid = false) ∧
  ∀ (s t : State) (i : Instr), s.phase = .drain → exec i s = .next t → t.out = s.out ∧ t.err = s.err

/-- R156, R27: outside an accepting operation ERR keeps its value until the next CMD or reset. -/
def Obligations.ErrStaysUntilTheNextCmd : Prop :=
  ∀ s t : State, s.phase = .drain ∨ s.phase = .done → step s = .next t → t.err ≠ s.err →
    s.pending.head? = some .reset ∨
    (s.phase = .done ∧ t.err = .none ∧ ∃ w, s.pending.head? = some (.word w) ∧
      ((∃ a st, decode w = .ok (.cmdEncode a st)) ∨ (∃ a st, decode w = .ok (.cmdDecode a st))))

/-! ### Rules over all transactions -/

/-- R25: IN_CNT: cleared by CMD, one more for a DATA in RUN whatever it does, otherwise unchanged, read as register 2,
and no transaction's behaviour depends on it. -/
def Obligations.InCntCountsTheUnitsOfTheOperation : Prop :=
  (∀ (s t : State) (i : Instr), exec i s = .next t →
    ((∃ a st, i = .cmdEncode a st) ∨ (∃ a st, i = .cmdDecode a st) → t.inCnt = 0#32) ∧
    ((∃ u, i = .data u) → s.phase = .run → t.inCnt = s.inCnt + 1#32) ∧
    ((∃ u, i = .data u) → s.phase = .drain → t.inCnt = s.inCnt) ∧
    (i = .endInput → t.inCnt = s.inCnt)) ∧
  (∀ s : State, regRead 2 s = some (.count s.inCnt)) ∧
  ∀ (s t : State) (i : Instr) (c : Count), exec i s = .next t →
    ∃ c', exec i { s with inCnt := c } = .next { t with inCnt := c' }

/-- R50, R51: OUT is written only by emission and emptied only by CMD (and reset, R170): every other step appends at
most four units to it. -/
def Obligations.OutOnlyGrowsWithinAnOperation : Prop :=
  ∀ s t : State, step s = .next t →
    (∃ us : List Byte, t.out = s.out ++ us ∧ us.length ≤ 4) ∨
    (t.out = [] ∧
      (s.pending.head? = some .reset ∨
        ∃ w, s.pending.head? = some (.word w) ∧
          ((∃ a st, decode w = .ok (.cmdEncode a st)) ∨ (∃ a st, decode w = .ok (.cmdDecode a st)))))

/-- R20: the only ways PHASE changes. -/
def Obligations.PhaseMovesOnlyAsListed : Prop :=
  ∀ s t : State, step s = .next t → t.phase ≠ s.phase →
    (s.pending.head? = some .reset ∧ t.phase = .idle) ∨
    ∃ w i, s.pending.head? = some (.word w) ∧ decode w = .ok i ∧
      ((((∃ a st, i = .cmdEncode a st) ∨ (∃ a st, i = .cmdDecode a st)) ∧
          (s.phase = .idle ∨ s.phase = .done) ∧ t.phase = .run) ∨
       (i = .endInput ∧ (s.phase = .run ∨ s.phase = .drain) ∧ t.phase = .done) ∨
       ((∃ u, i = .data u) ∧ s.phase = .run ∧ t.phase = .drain ∧ t.err ≠ .none))

/-- R23, R99: only a CMD and reset change CFG, and a CMD latches bits [2:0] of its word. -/
def Obligations.OnlyCmdChangesCfg : Prop :=
  ∀ s t : State, step s = .next t → t.cfg ≠ s.cfg →
    (s.pending.head? = some .reset ∧ t.cfg = 0x00#8) ∨
    ∃ w, s.pending.head? = some (.word w) ∧ t.cfg = w.setWidth 8 ∧ t.cfg.extractLsb' 3 5 = 0#5 ∧
      ((∃ a st, decode w = .ok (.cmdEncode a st)) ∨ (∃ a st, decode w = .ok (.cmdDecode a st)))

/-- The frame of DATA and END (R22, R23, R28, R29): neither writes CFG, the capacity or the port, an encode leaves DQ
and DK, and a decode leaves EG and EC. -/
def Obligations.FrameOfDataAndEnd : Prop :=
  ∀ (s t : State) (i : Instr), ((∃ u, i = .data u) ∨ i = .endInput) → exec i s = .next t →
    t.cfg = s.cfg ∧ t.outCap = s.outCap ∧ t.pending = s.pending ∧ t.answers = s.answers ∧
    (cfgOp s.cfg = .encode → t.dq = s.dq ∧ t.dk = s.dk) ∧
    (cfgOp s.cfg = .decode → t.eg = s.eg ∧ t.ec = s.ec)

/-- R100, R120: the encoder never reads the decoder's registers, and the decoder never reads the encoder's: what they
hold changes nothing else. -/
def Obligations.DatapathsNeverReadEachOther : Prop :=
  ∀ (s t : State) (i : Instr), ((∃ u, i = .data u) ∨ i = .endInput) → exec i s = .next t →
    (cfgOp s.cfg = .encode → ∀ (q : Word24) (k : Fin 4),
      exec i { s with dq := q, dk := k } = .next { t with dq := q, dk := k }) ∧
    (cfgOp s.cfg = .decode → ∀ (g : Word24) (c : Fin 3),
      exec i { s with eg := g, ec := c } = .next { t with eg := g, ec := c })

/-- R176, R93: END in RUN or DRAIN ends the operation in one step, with OUT_VALID exactly when ERR = 0. -/
def Obligations.EndClosesTheOperation : Prop :=
  ∀ s : State, s.phase = .run ∨ s.phase = .drain →
    ∃ t, exec .endInput s = .next t ∧ t.phase = .done ∧ t.done = true ∧ t.busy = false ∧
      (t.outValid = true ↔ t.err = .none)

/-- R162: instances share nothing (their list is the model's form, notes/assumptions/15.md): steps of two of them give
the same platform in either order. -/
def Obligations.InstancesShareNothing : Prop :=
  ∀ (p q r : Platform) (j k : Nat), j ≠ k → stepInstance j p = .next q → stepInstance k q = .next r →
    ∃ q', stepInstance k p = .next q' ∧ stepInstance j q' = .next r ∧ q'[j]? = p[j]? ∧ q[k]? = p[k]?

/-! ### The invariant -/

/-- R23, R24, R26, R27, R28, R29, R56, R150: every step keeps the invariant of the registers. -/
def Obligations.InvKeptByEveryStep : Prop :=
  ∀ s t : State, s.Inv → step s = .next t → t.Inv

/-- R37: the invariant holds after reset, whatever the capacity. -/
def Obligations.InvHoldsAfterReset : Prop :=
  State.reset.Inv ∧ ∀ cap : Capacity, (State.resetWith cap).Inv

/-! ### Whole operations -/

/-- R107 (which the spec marks as derived), R98: the transactions of an encode, issued from IDLE or DONE, end with the
result `Encode(b, A)`, or with AllocationFailure and the groups that fit. -/
def Obligations.EncodeOperationIsEncode : Prop :=
  ∀ (s : State) (a : Alphabet) (st : Bool) (b : List Byte) (rest : List PortEvent),
    s.phase = .idle ∨ s.phase = .done →
    s.pending = operationEvents (.cmdEncode a st) b ++ rest →
    ∃ t, runSteps (b.length + 2) s = .next t ∧ t.phase = .done ∧ t.pending = rest ∧ t.answers = s.answers ∧
      ((∀ c, s.outCap = some c → 4 * ((b.length + 2) / 3) ≤ c.val) →
        t.status = 0x06#8 ∧ t.result = .ok (encodeAll a b) ∧ t.out = encodeAll a b ∧
        t.outCnt = BitVec.ofNat 32 (4 * ((b.length + 2) / 3)) ∧
        t.inCnt = BitVec.ofNat 32 b.length) ∧
      (∀ c, s.outCap = some c → c.val < 4 * ((b.length + 2) / 3) →
        t.status = 0x1A#8 ∧ t.err = .allocationFailure ∧ t.out = (encodeAll a b).take (4 * (c.val / 4)) ∧
        t.outValid = false)

/-- R130 (which the spec marks as derived), R98: the transactions of a decode, issued from IDLE or DONE, end with the
result `Decode(t, A, S)`, or in AllocationFailure exactly when the bytes it appends do not fit. -/
def Obligations.DecodeOperationIsDecode : Prop :=
  ∀ (s : State) (a : Alphabet) (st : Bool) (u : List Byte) (rest : List PortEvent),
    s.phase = .idle ∨ s.phase = .done →
    s.pending = operationEvents (.cmdDecode a st) u ++ rest →
    ∃ t, runSteps (u.length + 2) s = .next t ∧ t.phase = .done ∧ t.pending = rest ∧ t.answers = s.answers ∧
      ((∀ c, s.outCap = some c → (decodeRun a st u).out.length ≤ c.val) →
        t.result = decodeAll a st u ∧
        (∀ bytes, decodeAll a st u = .ok bytes →
          t.status = 0x06#8 ∧ t.out = bytes ∧ t.inCnt = BitVec.ofNat 32 u.length) ∧
        (∀ e, decodeAll a st u = .error e →
          (e = .invalidCharacter ∨ e = .truncatedInput) ∧ t.status = 0x02#8 ||| (e.code.setWidth 8 <<< 3) ∧
          t.outValid = false ∧ t.out = (decodeRun a st u).out ∧
          t.inCnt = BitVec.ofNat 32 (decodeRun a st u).consumed)) ∧
      ((∃ c, s.outCap = some c ∧ c.val < (decodeRun a st u).out.length) → t.status = 0x1A#8)

/-- R133 (marked derived by the spec): decoding an encoding gives the bytes back, with its padding and without. -/
def Obligations.DecodeOfEncodeIsTheInput : Prop :=
  ∀ (a : Alphabet) (st : Bool) (b : List Byte),
    decodeAll a st (encodeAll a b) = .ok b ∧ decodeAll a st (stripPad (encodeAll a b)) = .ok b

/-- R108, R105 (marked derived by the spec): the length of an encoding, and how many padding units it ends with. -/
def Obligations.LengthAndPaddingOfAnEncoding : Prop :=
  ∀ (a : Alphabet) (b : List Byte),
    (encodeAll a b).length = 4 * ((b.length + 2) / 3) ∧ encodeAll a [] = [] ∧
    (encodeAll a b).count 0x3D#8 = (3 - b.length % 3) % 3 ∧
    ∃ chars, encodeAll a b = chars ++ List.replicate ((3 - b.length % 3) % 3) 0x3D#8 ∧
      ∀ u ∈ chars, ∃ v, u = fwdLUT a v

/-- R110 (marked derived by the spec): the two encodings of one input agree but for `+` against `-` and `/` against
`_`. -/
def Obligations.AlphabetsDifferOnlyIn62And63 : Prop :=
  ∀ b : List Byte,
    encodeAll .urlSafe b = (encodeAll .standard b).map fun u =>
      if u = 0x2B#8 then 0x2D#8 else if u = 0x2F#8 then 0x5F#8 else u

/-- R128 (marked derived by the spec): `m` data characters and at most two `=` decode to `floor(3m/4)` bytes where `m
mod 4 ≠ 1`. -/
def Obligations.LengthOfADecode : Prop :=
  ∀ (a : Alphabet) (st : Bool) (vs : List Sextet) (pads : Nat), pads ≤ 2 → vs.length % 4 ≠ 1 →
    ∃ bytes, decodeAll a st (vs.map (fwdLUT a) ++ List.replicate pads 0x3D#8) = .ok bytes ∧
      bytes.length = 3 * vs.length / 4

/-- R131: data characters alone, one more than a multiple of four of them, fail with TruncatedInput, whatever number
of `=` follows. -/
def Obligations.OneCharacterQuantumFails : Prop :=
  ∀ (a : Alphabet) (st : Bool) (vs : List Sextet) (pads : Nat), vs.length % 4 = 1 →
    decodeAll a st (vs.map (fwdLUT a) ++ List.replicate pads 0x3D#8) = .error .truncatedInput

/-- R132: the low bits a partial quantum drops are not checked: sextets that differ only in them decode alike. -/
def Obligations.DroppedBitsAreNotChecked : Prop :=
  (∀ (a : Alphabet) (st : Bool) (v0 v1 w1 : Sextet) (pads : Nat), v1.extractLsb' 4 2 = w1.extractLsb' 4 2 →
    ∃ byte, decodeAll a st ([fwdLUT a v0, fwdLUT a v1] ++ List.replicate pads 0x3D#8) = .ok [byte] ∧
      decodeAll a st ([fwdLUT a v0, fwdLUT a w1] ++ List.replicate pads 0x3D#8) = .ok [byte]) ∧
  ∀ (a : Alphabet) (st : Bool) (v0 v1 v2 w2 : Sextet) (pads : Nat), v2.extractLsb' 2 4 = w2.extractLsb' 2 4 →
    ∃ b0 b1, decodeAll a st ([fwdLUT a v0, fwdLUT a v1, fwdLUT a v2] ++ List.replicate pads 0x3D#8) = .ok [b0, b1] ∧
      decodeAll a st ([fwdLUT a v0, fwdLUT a v1, fwdLUT a w2] ++ List.replicate pads 0x3D#8) = .ok [b0, b1]

/-- R134 (marked derived by the spec): an encoding that holds a 62 or 63 symbol fails a strict decode under the other
alphabet. -/
def Obligations.CrossAlphabetInputIsInvalid : Prop :=
  ∀ (a a' : Alphabet) (b : List Byte), a ≠ a' →
    (fwdLUT a 62#6 ∈ encodeAll a b ∨ fwdLUT a 63#6 ∈ encodeAll a b) →
    decodeAll a' true (encodeAll a b) = .error .invalidCharacter

end Statements
end

