-- ==== Sys2Proof/Laws/Assembler.lean ====
section
/-! SUPPORT. What the assembler's lexer and parser make of names, numerals, characters and comments (30_encoding.md R79). -/

namespace Sys2Proof.Machine

/-- A character that the lexer takes into a name. -/
abbrev nameChar (c : Char) : Prop :=
  c ≠ ';' ∧ isBlank c = false ∧ c ≠ ',' ∧ c ≠ apostrophe ∧ c ≠ doubleQuote

/-- For a name that is written out, where `decide` closes the hypothesis. -/
theorem nameChar_of_all {cs : List Char} (h : cs.all (fun c => decide (nameChar c)) = true) :
    ∀ c ∈ cs, nameChar c := by
  intro c hc
  simpa using List.all_eq_true.1 h c hc

theorem lexLine_name_append (cs rest acc : List Char) (h : ∀ c ∈ cs, nameChar c) :
    lexLine (.plain acc) (cs ++ rest) = lexLine (.plain (cs.reverse ++ acc)) rest := by
  induction cs generalizing acc with
  | nil => rfl
  | cons c cs ih =>
    obtain ⟨h1, h2, h3, h4, h5⟩ := h c (by simp)
    rw [List.cons_append, lexLine, if_neg h1, h2, if_neg (by simp), if_neg h3, if_neg h4, if_neg h5,
      ih _ fun d hd => h d (by simp [hd])]
    simp

/-- A whole name, and the end of the line. -/
theorem lexLine_name (cs : List Char) (h : ∀ c ∈ cs, nameChar c) (hne : cs ≠ []) :
    lexLine (.plain []) cs = some [.name cs] := by
  have := lexLine_name_append cs [] [] h
  simp only [List.append_nil] at this
  rw [this]
  simp [lexLine, flushName, hne]

/-- A whole name, a comma and a blank. -/
theorem lexLine_name_comma (cs rest : List Char) (h : ∀ c ∈ cs, nameChar c) (hne : cs ≠ []) :
    lexLine (.plain []) (cs ++ ',' :: ' ' :: rest) =
      (lexLine (.plain []) rest).map fun ts => .name cs :: .comma :: ts := by
  rw [lexLine_name_append _ _ _ h]
  cases hr : lexLine (.plain []) rest <;> simp [lexLine, flushName, hne, isBlank, hr]

/-- A whole name and a blank. -/
theorem lexLine_name_blank (cs rest : List Char) (h : ∀ c ∈ cs, nameChar c) (hne : cs ≠ []) :
    lexLine (.plain []) (cs ++ ' ' :: rest) = (lexLine (.plain []) rest).map fun ts => .name cs :: ts := by
  rw [lexLine_name_append _ _ _ h]
  cases hr : lexLine (.plain []) rest <;> simp [lexLine, flushName, hne, isBlank, hr]

/-- R79: `;` starts a comment where no quote stands before it. -/
theorem lexLine_comment (line comment : List Char) (h1 : apostrophe ∉ line) (h2 : doubleQuote ∉ line) :
    ∀ acc, lexLine (.plain acc) (line ++ ';' :: comment) = lexLine (.plain acc) line := by
  induction line with
  | nil => intro acc; simp [lexLine]
  | cons c cs ih =>
    intro acc
    simp only [List.mem_cons, not_or] at h1 h2
    have ih := ih h1.2 h2.2
    simp only [List.cons_append, lexLine, Ne.symm h1.1, Ne.symm h2.1, ih, if_false]

/-- A line is assembled by its tokens and the statement they spell. -/
theorem assembleLine_of_tokens {line : List Char} {ts : List Token} {l : AsmLine}
    (h1 : lexLine (.plain []) line = some ts) (h2 : parseTokens ts = some l) : assembleLine line = expand l := by
  simp [assembleLine, parseLine, h1, h2]

theorem nameChar_decimal : ∀ d : Fin 10, nameChar (Nat.digitChar d.val) := by decide
theorem nameChar_hex : ∀ d : Fin 16, nameChar (Nat.digitChar d.val).toUpper := by decide
theorem digitValue_decimal : ∀ d : Fin 10, digitValue 10 (Nat.digitChar d.val) = some d.val := by decide
theorem digitValue_hex : ∀ d : Fin 16, digitValue 16 (Nat.digitChar d.val).toUpper = some d.val := by decide
theorem digitChar_ne_x : ∀ d : Fin 10, Nat.digitChar d.val ≠ 'x' := by decide

theorem nameChar_decimalText (ds : List (Fin 10)) : ∀ c ∈ decimalText ds, nameChar c := by
  simp only [decimalText, List.mem_map]
  rintro _ ⟨d, _, rfl⟩
  exact nameChar_decimal d

theorem nameChar_hexText (ds : List (Fin 16)) : ∀ c ∈ hexText ds, nameChar c := by
  simp only [hexText, List.mem_map]
  rintro _ ⟨d, _, rfl⟩
  exact nameChar_hex d

theorem numeralValue_cons {b : Nat} (d : Fin b) (ds : List (Fin b)) :
    numeralValue (d :: ds) = d.val * b ^ ds.length + numeralValue ds := by
  simp [numeralValue, Nat.ofDigits_append]
  ring

/-- Digits that `digitValue` reads back add up to the numeral's value. -/
theorem parseDigits_map {b : Nat} (f : Fin b → Char) (hf : ∀ d, digitValue b (f d) = some d.val)
    (ds : List (Fin b)) (hne : ds ≠ []) : parseDigits b (ds.map f) = some (numeralValue ds) := by
  have fold : ∀ (ds : List (Fin b)) (n : Nat),
      (ds.map f).foldlM (fun n c => (digitValue b c).map fun d => n * b + d) n =
        some (n * b ^ ds.length + numeralValue ds) := by
    intro ds
    induction ds with
    | nil => intro n; simp [numeralValue]
    | cons d ds ih =>
      intro n
      simp only [List.map_cons, List.foldlM_cons, hf, Option.map_some, Option.bind_eq_bind, Option.bind_some, ih,
        List.length_cons, numeralValue_cons]
      congr 1
      ring
  rw [parseDigits, if_neg (by simp [hne]), fold]
  simp

theorem parseByte_decimalText (ds : List (Fin 10)) (hne : ds ≠ []) :
    parseByte (.name (decimalText ds)) = some (.num (numeralValue ds)) := by
  have h := parseDigits_map (fun d : Fin 10 => Nat.digitChar d.val) digitValue_decimal ds hne
  have hx : ∀ cs, decimalText ds ≠ '0' :: 'x' :: cs := by
    intro cs hc
    match ds, hc with
    | [d], hc => simp [decimalText] at hc
    | d :: e :: ds, hc =>
      simp only [decimalText, List.map_cons, List.cons.injEq] at hc
      exact digitChar_ne_x e hc.2.1
  unfold parseByte
  split
  · rename_i hc; simp at hc
  · rename_i cs hc; simp only [Token.name.injEq] at hc; exact absurd hc (hx cs)
  · rename_i cs _ hc; simp only [Token.name.injEq] at hc; subst hc
    rw [decimalText, h]; rfl
  · rename_i h4; exact absurd rfl (h4 _)

theorem parseByte_hexText (ds : List (Fin 16)) (hne : ds ≠ []) :
    parseByte (.name ('0' :: 'x' :: hexText ds)) = some (.num (numeralValue ds)) := by
  simp only [parseByte, hexText, parseDigits_map _ digitValue_hex ds hne, Option.map_some]

/-- The tokens of decimal numerals with commas between them. -/
def decimalTokens : List (List (Fin 10)) → List Token
  | [] => []
  | [ds] => [.name (decimalText ds)]
  | ds :: nss => .name (decimalText ds) :: .comma :: decimalTokens nss

theorem lexLine_decimalListText (nss : List (List (Fin 10))) (h : ∀ ds ∈ nss, ds ≠ []) :
    lexLine (.plain []) (decimalListText nss) = some (decimalTokens nss) := by
  induction nss with
  | nil => rfl
  | cons ds nss ih =>
    have hne : decimalText ds ≠ [] := by simpa [decimalText] using h ds (by simp)
    have ih := ih fun x hx => h x (by simp [hx])
    cases nss with
    | nil => simpa [decimalListText, decimalTokens] using lexLine_name _ (nameChar_decimalText ds) hne
    | cons es nss =>
      have ht : decimalListText (ds :: es :: nss) =
          decimalText ds ++ ',' :: ' ' :: decimalListText (es :: nss) := by
        simp [decimalListText, List.intercalate]
      rw [ht, lexLine_name_comma _ _ (nameChar_decimalText ds) hne, ih]
      rfl

theorem parseBytes_decimalTokens (nss : List (List (Fin 10))) (h0 : nss ≠ []) (h : ∀ ds ∈ nss, ds ≠ []) :
    parseBytes (decimalTokens nss) = some (nss.map fun ds => .num (numeralValue ds)) := by
  induction nss with
  | nil => exact absurd rfl h0
  | cons ds nss ih =>
    have hb := parseByte_decimalText ds (h ds (by simp))
    cases nss with
    | nil => simp [decimalTokens, parseBytes, hb]
    | cons es nss =>
      have ih := ih (by simp) fun x hx => h x (by simp [hx])
      simp [decimalTokens, parseBytes, hb, ih]

/-- R79: which lists of numbers the assembler accepts as bytes. -/
theorem all_num_wellFormed (nss : List (List (Fin 10))) :
    (nss.map fun ds => AsmByte.num (numeralValue ds)).all AsmByte.wellFormed = true ↔
      ∀ ds ∈ nss, numeralValue ds ≤ 255 := by
  simp [AsmByte.wellFormed]

end Sys2Proof.Machine
end

