-- ==== Sys2Proof/Laws/Tables.lean ====
section
/-! SUPPORT. Facts about the look-up tables, the splitter and the reassembler. -/

namespace Sys2Proof.Machine

/-- R35: the reverse look-up undoes the alphabet look-up, so the 64 symbols are distinct. -/
theorem revLUT_fwdLUT (a : Alphabet) : ∀ v : Sextet, revLUT a (fwdLUT a v) = some v := by
  cases a <;> decide

/-- R35: the padding symbol is INVALID in both alphabets. -/
theorem revLUT_padCode (a : Alphabet) : revLUT a padCode = none := by
  cases a <;> rfl

theorem fwdLUT_lt (a : Alphabet) : ∀ v : Sextet, fwdLUT a v < 0x80#8 := by
  cases a <;> decide

/-- R35: the padding symbol is not a member of either alphabet. -/
theorem fwdLUT_ne_padCode (a : Alphabet) : ∀ v : Sextet, fwdLUT a v ≠ padCode := by
  cases a <;> decide

theorem fwdLUT_of_revLUT (a : Alphabet) : ∀ c : Byte, ∀ v : Sextet, revLUT a c = some v → fwdLUT a v = c := by
  have h : ∀ c : Byte, (revLUT a c).all (fun v => fwdLUT a v == c) = true := by
    cases a <;> decide
  intro c v hv
  simpa [hv] using h c

@[simp] theorem classify_fwdLUT (a : Alphabet) (v : Sextet) : classify a (fwdLUT a v) = .data v := by
  simp [classify, revLUT_fwdLUT]

@[simp] theorem classify_padCode (a : Alphabet) : classify a padCode = .pad := by
  simp [classify, revLUT_padCode, isPad]

theorem classify_eq_data_iff (a : Alphabet) (u : Byte) (v : Sextet) :
    classify a u = .data v ↔ revLUT a u = some v := by
  unfold classify
  cases revLUT a u with
  | some w => simp
  | none => cases isPad u <;> simp

theorem classify_eq_pad_iff (a : Alphabet) (u : Byte) : classify a u = .pad ↔ u = padCode := by
  constructor
  · intro h
    unfold classify at h
    cases hr : revLUT a u with
    | some w => simp [hr] at h
    | none =>
      cases hp : isPad u with
      | true => simpa [isPad] using hp
      | false => simp [hr, hp] at h
  · rintro rfl
    exact classify_padCode a

theorem classify_eq_other_iff (a : Alphabet) (u : Byte) :
    classify a u = .other ↔ revLUT a u = none ∧ u ≠ padCode := by
  unfold classify
  cases revLUT a u with
  | some w => simp
  | none => cases hp : isPad u <;> simp_all [isPad]

theorem pack_getLsbD (b0 b1 b2 : Byte) (i : Nat) :
    (pack b0 b1 b2).getLsbD i =
      if i < 8 then b2.getLsbD i else if i < 16 then b1.getLsbD (i - 8) else b0.getLsbD (i - 16) := by
  unfold pack
  rw [BitVec.getLsbD_append, BitVec.getLsbD_append]
  by_cases h8 : i < 8
  · simp [h8]
  · by_cases h16 : i < 16
    · simp [h8, h16, show i - 8 < 8 by omega]
    · simp [h8, h16, show ¬ i - 8 < 8 by omega, Nat.sub_sub]

theorem lane_getLsbD (w : Word24) (j : Fin 4) (i : Nat) :
    (lane w j).getLsbD i = (decide (i < 6) && w.getLsbD (18 - 6 * j.val + i)) := by
  simp [lane, BitVec.getLsbD_extractLsb']

theorem insertSextet_getLsbD (q : Word24) (k : Fin 4) (v : Sextet) (i : Nat) :
    (insertSextet q k v).getLsbD i =
      (q.getLsbD i || (decide (i < 24) && (!decide (i < 18 - 6 * k.val) && v.getLsbD (i - (18 - 6 * k.val))))) := by
  simp only [insertSextet, BitVec.getLsbD_or, BitVec.getLsbD_shiftLeft, BitVec.getLsbD_setWidth]
  by_cases h : i < 24
  · simp [h, show i - (18 - 6 * k.val) < 24 by omega]
  · simp [h]

/-- R52, R53: the byte fields of a packed group are its bytes. -/
theorem bytes_pack (b0 b1 b2 : Byte) :
    byteHigh (pack b0 b1 b2) = b0 ∧ byteMid (pack b0 b1 b2) = b1 ∧ byteLow (pack b0 b1 b2) = b2 := by
  refine ⟨?_, ?_, ?_⟩ <;> apply BitVec.eq_of_getLsbD_eq <;> intro i hi <;>
    simp only [byteHigh, byteMid, byteLow, BitVec.getLsbD_extractLsb', pack_getLsbD]
  · simp [hi, show ¬ 16 + i < 8 by omega, show ¬ 16 + i < 16 by omega]
  · simp [hi, show ¬ 8 + i < 8 by omega, show 8 + i < 16 by omega]
  · simp [hi]

/-- R101, R123: putting a group's four lanes back gives the group. -/
theorem insertSextet_lanes (w : Word24) :
    insertSextet (insertSextet (insertSextet (insertSextet 0#24 0 (lane w 0)) 1 (lane w 1)) 2 (lane w 2)) 3 (lane w 3)
      = w := by
  apply BitVec.eq_of_getLsbD_eq
  intro i hi
  simp only [insertSextet_getLsbD, lane_getLsbD]
  interval_cases i <;> simp

end Sys2Proof.Machine
end

