-- ==== Sys2Proof/Laws/Codec.lean ====
section
/-! SUPPORT. One step of the whole-input functions at a time: `Decode`'s loop on a data character, on a padding symbol and on
the four characters of a group. -/

namespace Sys2Proof.Machine

theorem decodeLoop_fwdLUT (a : Alphabet) (strict : Bool) (k : Fin 4) (q : Word24) (out : List Byte) (n : Nat)
    (v : Sextet) (us : List Byte) :
    decodeLoop a strict k q out n (fwdLUT a v :: us) =
      if k = 3 then decodeLoop a strict 0 0#24 (out ++ quantumBytes (insertSextet q k v)) (n + 1) us
      else decodeLoop a strict (k + 1) (insertSextet q k v) out (n + 1) us := by
  rw [decodeLoop, classify_fwdLUT]

theorem decodeLoop_padCode (a : Alphabet) (strict : Bool) (k : Fin 4) (q : Word24) (out : List Byte) (n : Nat)
    (us : List Byte) :
    decodeLoop a strict k q out n (padCode :: us) =
      match stopBytes k q with
      | some bs => decodeLoop a strict 0 0#24 (out ++ bs) (n + 1) us
      | none => ⟨.truncatedInput, out, n + 1⟩ := by
  cases h : stopBytes k q <;> simp [decodeLoop, classify_padCode, h]

/-- R133's first case: a full group's four characters give its three bytes back. -/
theorem decodeLoop_groupChars (a : Alphabet) (strict : Bool) (out : List Byte) (n : Nat) (w : Word24)
    (us : List Byte) :
    decodeLoop a strict 0 0#24 out n (groupChars a w ++ us) =
      decodeLoop a strict 0 0#24 (out ++ quantumBytes w) (n + 4) us := by
  simp only [groupChars, laneChar, List.cons_append, List.nil_append]
  rw [decodeLoop_fwdLUT, if_neg (by decide), decodeLoop_fwdLUT, if_neg (by decide), decodeLoop_fwdLUT,
    if_neg (by decide), decodeLoop_fwdLUT, if_pos (by decide)]
  rw [show (0 : Fin 4) + 1 = 1 from rfl, show (1 : Fin 4) + 1 = 2 from rfl, show (2 : Fin 4) + 1 = 3 from rfl,
    insertSextet_lanes]

/-- `Decode` only appends. -/
theorem decodeLoop_out_grows (a : Alphabet) (strict : Bool) :
    ∀ (us : List Byte) (k : Fin 4) (q : Word24) (out : List Byte) (n : Nat),
      out.length ≤ (decodeLoop a strict k q out n us).out.length
  | [], k, q, out, n => by
    simp only [decodeLoop]
    split <;> simp
  | u :: us, k, q, out, n => by
    have ih := decodeLoop_out_grows a strict us
    simp only [decodeLoop]
    split
    · split
      · exact le_trans (by simp) (ih _ _ _ _)
      · exact ih _ _ _ _
    · split
      · simp
      · split
        · exact le_trans (by simp) (ih _ _ _ _)
        · simp

/-- R129: `Decode` knows no capacity. -/
theorem decodeLoop_err_ne_allocationFailure (a : Alphabet) (strict : Bool) :
    ∀ (us : List Byte) (k : Fin 4) (q : Word24) (out : List Byte) (n : Nat),
      (decodeLoop a strict k q out n us).err ≠ .allocationFailure
  | [], k, q, out, n => by
    simp only [decodeLoop]
    split <;> simp
  | u :: us, k, q, out, n => by
    have ih := decodeLoop_err_ne_allocationFailure a strict us
    simp only [decodeLoop]
    split
    · split <;> exact ih _ _ _ _
    · split
      · simp
      · split
        · exact ih _ _ _ _
        · simp

end Sys2Proof.Machine
end

