-- ==== Sys2Proof/Laws/State.lean ====
section
/-! SUPPORT. One lemma per field per named update of the state, so that no later proof unfolds a record update. -/

namespace Sys2Proof.Machine

variable (s : State)

@[simp] theorem State.consume_phase : s.consume.phase = s.phase := rfl
@[simp] theorem State.consume_cfg : s.consume.cfg = s.cfg := rfl
@[simp] theorem State.consume_err : s.consume.err = s.err := rfl
@[simp] theorem State.consume_inCnt : s.consume.inCnt = s.inCnt := rfl
@[simp] theorem State.consume_out : s.consume.out = s.out := rfl
@[simp] theorem State.consume_eg : s.consume.eg = s.eg := rfl
@[simp] theorem State.consume_ec : s.consume.ec = s.ec := rfl
@[simp] theorem State.consume_dq : s.consume.dq = s.dq := rfl
@[simp] theorem State.consume_dk : s.consume.dk = s.dk := rfl
@[simp] theorem State.consume_outCap : s.consume.outCap = s.outCap := rfl
@[simp] theorem State.consume_pending : s.consume.pending = s.pending.tail := rfl
@[simp] theorem State.consume_answers : s.consume.answers = s.answers := rfl

@[simp] theorem State.countUnit_phase : s.countUnit.phase = s.phase := rfl
@[simp] theorem State.countUnit_cfg : s.countUnit.cfg = s.cfg := rfl
@[simp] theorem State.countUnit_err : s.countUnit.err = s.err := rfl
@[simp] theorem State.countUnit_inCnt : s.countUnit.inCnt = s.inCnt + 1#32 := rfl
@[simp] theorem State.countUnit_out : s.countUnit.out = s.out := rfl
@[simp] theorem State.countUnit_eg : s.countUnit.eg = s.eg := rfl
@[simp] theorem State.countUnit_ec : s.countUnit.ec = s.ec := rfl
@[simp] theorem State.countUnit_dq : s.countUnit.dq = s.dq := rfl
@[simp] theorem State.countUnit_dk : s.countUnit.dk = s.dk := rfl
@[simp] theorem State.countUnit_outCap : s.countUnit.outCap = s.outCap := rfl
@[simp] theorem State.countUnit_pending : s.countUnit.pending = s.pending := rfl
@[simp] theorem State.countUnit_answers : s.countUnit.answers = s.answers := rfl

@[simp] theorem State.setGroup_phase (eg : Word24) (ec : Fin 3) : (s.setGroup eg ec).phase = s.phase := rfl
@[simp] theorem State.setGroup_cfg (eg : Word24) (ec : Fin 3) : (s.setGroup eg ec).cfg = s.cfg := rfl
@[simp] theorem State.setGroup_err (eg : Word24) (ec : Fin 3) : (s.setGroup eg ec).err = s.err := rfl
@[simp] theorem State.setGroup_inCnt (eg : Word24) (ec : Fin 3) : (s.setGroup eg ec).inCnt = s.inCnt := rfl
@[simp] theorem State.setGroup_out (eg : Word24) (ec : Fin 3) : (s.setGroup eg ec).out = s.out := rfl
@[simp] theorem State.setGroup_eg (eg : Word24) (ec : Fin 3) : (s.setGroup eg ec).eg = eg := rfl
@[simp] theorem State.setGroup_ec (eg : Word24) (ec : Fin 3) : (s.setGroup eg ec).ec = ec := rfl
@[simp] theorem State.setGroup_dq (eg : Word24) (ec : Fin 3) : (s.setGroup eg ec).dq = s.dq := rfl
@[simp] theorem State.setGroup_dk (eg : Word24) (ec : Fin 3) : (s.setGroup eg ec).dk = s.dk := rfl
@[simp] theorem State.setGroup_outCap (eg : Word24) (ec : Fin 3) : (s.setGroup eg ec).outCap = s.outCap := rfl
@[simp] theorem State.setGroup_pending (eg : Word24) (ec : Fin 3) : (s.setGroup eg ec).pending = s.pending := rfl
@[simp] theorem State.setGroup_answers (eg : Word24) (ec : Fin 3) : (s.setGroup eg ec).answers = s.answers := rfl

@[simp] theorem State.setQuantum_phase (dq : Word24) (dk : Fin 4) : (s.setQuantum dq dk).phase = s.phase := rfl
@[simp] theorem State.setQuantum_cfg (dq : Word24) (dk : Fin 4) : (s.setQuantum dq dk).cfg = s.cfg := rfl
@[simp] theorem State.setQuantum_err (dq : Word24) (dk : Fin 4) : (s.setQuantum dq dk).err = s.err := rfl
@[simp] theorem State.setQuantum_inCnt (dq : Word24) (dk : Fin 4) : (s.setQuantum dq dk).inCnt = s.inCnt := rfl
@[simp] theorem State.setQuantum_out (dq : Word24) (dk : Fin 4) : (s.setQuantum dq dk).out = s.out := rfl
@[simp] theorem State.setQuantum_eg (dq : Word24) (dk : Fin 4) : (s.setQuantum dq dk).eg = s.eg := rfl
@[simp] theorem State.setQuantum_ec (dq : Word24) (dk : Fin 4) : (s.setQuantum dq dk).ec = s.ec := rfl
@[simp] theorem State.setQuantum_dq (dq : Word24) (dk : Fin 4) : (s.setQuantum dq dk).dq = dq := rfl
@[simp] theorem State.setQuantum_dk (dq : Word24) (dk : Fin 4) : (s.setQuantum dq dk).dk = dk := rfl
@[simp] theorem State.setQuantum_outCap (dq : Word24) (dk : Fin 4) : (s.setQuantum dq dk).outCap = s.outCap := rfl
@[simp] theorem State.setQuantum_pending (dq : Word24) (dk : Fin 4) : (s.setQuantum dq dk).pending = s.pending := rfl
@[simp] theorem State.setQuantum_answers (dq : Word24) (dk : Fin 4) : (s.setQuantum dq dk).answers = s.answers := rfl

@[simp] theorem State.setPhase_phase (p : Phase) : (s.setPhase p).phase = p := rfl
@[simp] theorem State.setPhase_cfg (p : Phase) : (s.setPhase p).cfg = s.cfg := rfl
@[simp] theorem State.setPhase_err (p : Phase) : (s.setPhase p).err = s.err := rfl
@[simp] theorem State.setPhase_inCnt (p : Phase) : (s.setPhase p).inCnt = s.inCnt := rfl
@[simp] theorem State.setPhase_out (p : Phase) : (s.setPhase p).out = s.out := rfl
@[simp] theorem State.setPhase_eg (p : Phase) : (s.setPhase p).eg = s.eg := rfl
@[simp] theorem State.setPhase_ec (p : Phase) : (s.setPhase p).ec = s.ec := rfl
@[simp] theorem State.setPhase_dq (p : Phase) : (s.setPhase p).dq = s.dq := rfl
@[simp] theorem State.setPhase_dk (p : Phase) : (s.setPhase p).dk = s.dk := rfl
@[simp] theorem State.setPhase_outCap (p : Phase) : (s.setPhase p).outCap = s.outCap := rfl
@[simp] theorem State.setPhase_pending (p : Phase) : (s.setPhase p).pending = s.pending := rfl
@[simp] theorem State.setPhase_answers (p : Phase) : (s.setPhase p).answers = s.answers := rfl

@[simp] theorem State.appendOut_phase (us : List Byte) : (s.appendOut us).phase = s.phase := rfl
@[simp] theorem State.appendOut_cfg (us : List Byte) : (s.appendOut us).cfg = s.cfg := rfl
@[simp] theorem State.appendOut_err (us : List Byte) : (s.appendOut us).err = s.err := rfl
@[simp] theorem State.appendOut_inCnt (us : List Byte) : (s.appendOut us).inCnt = s.inCnt := rfl
@[simp] theorem State.appendOut_out (us : List Byte) : (s.appendOut us).out = s.out ++ us := rfl
@[simp] theorem State.appendOut_eg (us : List Byte) : (s.appendOut us).eg = s.eg := rfl
@[simp] theorem State.appendOut_ec (us : List Byte) : (s.appendOut us).ec = s.ec := rfl
@[simp] theorem State.appendOut_dq (us : List Byte) : (s.appendOut us).dq = s.dq := rfl
@[simp] theorem State.appendOut_dk (us : List Byte) : (s.appendOut us).dk = s.dk := rfl
@[simp] theorem State.appendOut_outCap (us : List Byte) : (s.appendOut us).outCap = s.outCap := rfl
@[simp] theorem State.appendOut_pending (us : List Byte) : (s.appendOut us).pending = s.pending := rfl
@[simp] theorem State.appendOut_answers (us : List Byte) : (s.appendOut us).answers = s.answers := rfl

@[simp] theorem State.answer_phase (a : Answer) : (s.answer a).phase = s.phase := rfl
@[simp] theorem State.answer_cfg (a : Answer) : (s.answer a).cfg = s.cfg := rfl
@[simp] theorem State.answer_err (a : Answer) : (s.answer a).err = s.err := rfl
@[simp] theorem State.answer_inCnt (a : Answer) : (s.answer a).inCnt = s.inCnt := rfl
@[simp] theorem State.answer_out (a : Answer) : (s.answer a).out = s.out := rfl
@[simp] theorem State.answer_eg (a : Answer) : (s.answer a).eg = s.eg := rfl
@[simp] theorem State.answer_ec (a : Answer) : (s.answer a).ec = s.ec := rfl
@[simp] theorem State.answer_dq (a : Answer) : (s.answer a).dq = s.dq := rfl
@[simp] theorem State.answer_dk (a : Answer) : (s.answer a).dk = s.dk := rfl
@[simp] theorem State.answer_outCap (a : Answer) : (s.answer a).outCap = s.outCap := rfl
@[simp] theorem State.answer_pending (a : Answer) : (s.answer a).pending = s.pending := rfl
@[simp] theorem State.answer_answers (a : Answer) : (s.answer a).answers = s.answers ++ [a] := rfl

@[simp] theorem State.startOperation_phase (c : Byte) : (s.startOperation c).phase = .run := rfl
@[simp] theorem State.startOperation_cfg (c : Byte) : (s.startOperation c).cfg = c := rfl
@[simp] theorem State.startOperation_err (c : Byte) : (s.startOperation c).err = .none := rfl
@[simp] theorem State.startOperation_inCnt (c : Byte) : (s.startOperation c).inCnt = 0#32 := rfl
@[simp] theorem State.startOperation_out (c : Byte) : (s.startOperation c).out = [] := rfl
@[simp] theorem State.startOperation_eg (c : Byte) : (s.startOperation c).eg = 0#24 := rfl
@[simp] theorem State.startOperation_ec (c : Byte) : (s.startOperation c).ec = 0 := rfl
@[simp] theorem State.startOperation_dq (c : Byte) : (s.startOperation c).dq = 0#24 := rfl
@[simp] theorem State.startOperation_dk (c : Byte) : (s.startOperation c).dk = 0 := rfl
@[simp] theorem State.startOperation_outCap (c : Byte) : (s.startOperation c).outCap = s.outCap := rfl
@[simp] theorem State.startOperation_pending (c : Byte) : (s.startOperation c).pending = s.pending := rfl
@[simp] theorem State.startOperation_answers (c : Byte) : (s.startOperation c).answers = s.answers := rfl

@[simp] theorem State.resetBlock_phase : s.resetBlock.phase = .idle := rfl
@[simp] theorem State.resetBlock_cfg : s.resetBlock.cfg = 0#8 := rfl
@[simp] theorem State.resetBlock_err : s.resetBlock.err = .none := rfl
@[simp] theorem State.resetBlock_inCnt : s.resetBlock.inCnt = 0#32 := rfl
@[simp] theorem State.resetBlock_out : s.resetBlock.out = [] := rfl
@[simp] theorem State.resetBlock_eg : s.resetBlock.eg = 0#24 := rfl
@[simp] theorem State.resetBlock_ec : s.resetBlock.ec = 0 := rfl
@[simp] theorem State.resetBlock_dq : s.resetBlock.dq = 0#24 := rfl
@[simp] theorem State.resetBlock_dk : s.resetBlock.dk = 0 := rfl
@[simp] theorem State.resetBlock_outCap : s.resetBlock.outCap = s.outCap := rfl
@[simp] theorem State.resetBlock_pending : s.resetBlock.pending = s.pending := rfl
@[simp] theorem State.resetBlock_answers : s.resetBlock.answers = s.answers := rfl

@[simp] theorem State.raiseErr_data_phase (e : ErrCode) : (s.raiseErr .data e).phase = .drain := rfl
@[simp] theorem State.raiseErr_data_cfg (e : ErrCode) : (s.raiseErr .data e).cfg = s.cfg := rfl
@[simp] theorem State.raiseErr_data_err (e : ErrCode) : (s.raiseErr .data e).err = e := rfl
@[simp] theorem State.raiseErr_data_inCnt (e : ErrCode) : (s.raiseErr .data e).inCnt = s.inCnt := rfl
@[simp] theorem State.raiseErr_data_out (e : ErrCode) : (s.raiseErr .data e).out = s.out := rfl
@[simp] theorem State.raiseErr_data_eg (e : ErrCode) : (s.raiseErr .data e).eg = s.eg := rfl
@[simp] theorem State.raiseErr_data_ec (e : ErrCode) : (s.raiseErr .data e).ec = s.ec := rfl
@[simp] theorem State.raiseErr_data_dq (e : ErrCode) : (s.raiseErr .data e).dq = s.dq := rfl
@[simp] theorem State.raiseErr_data_dk (e : ErrCode) : (s.raiseErr .data e).dk = s.dk := rfl
@[simp] theorem State.raiseErr_data_outCap (e : ErrCode) : (s.raiseErr .data e).outCap = s.outCap := rfl
@[simp] theorem State.raiseErr_data_pending (e : ErrCode) : (s.raiseErr .data e).pending = s.pending := rfl
@[simp] theorem State.raiseErr_data_answers (e : ErrCode) : (s.raiseErr .data e).answers = s.answers := rfl

@[simp] theorem State.raiseErr_endInput_phase (e : ErrCode) : (s.raiseErr .endInput e).phase = s.phase := rfl
@[simp] theorem State.raiseErr_endInput_cfg (e : ErrCode) : (s.raiseErr .endInput e).cfg = s.cfg := rfl
@[simp] theorem State.raiseErr_endInput_err (e : ErrCode) : (s.raiseErr .endInput e).err = e := rfl
@[simp] theorem State.raiseErr_endInput_inCnt (e : ErrCode) : (s.raiseErr .endInput e).inCnt = s.inCnt := rfl
@[simp] theorem State.raiseErr_endInput_out (e : ErrCode) : (s.raiseErr .endInput e).out = s.out := rfl
@[simp] theorem State.raiseErr_endInput_eg (e : ErrCode) : (s.raiseErr .endInput e).eg = s.eg := rfl
@[simp] theorem State.raiseErr_endInput_ec (e : ErrCode) : (s.raiseErr .endInput e).ec = s.ec := rfl
@[simp] theorem State.raiseErr_endInput_dq (e : ErrCode) : (s.raiseErr .endInput e).dq = s.dq := rfl
@[simp] theorem State.raiseErr_endInput_dk (e : ErrCode) : (s.raiseErr .endInput e).dk = s.dk := rfl
@[simp] theorem State.raiseErr_endInput_outCap (e : ErrCode) : (s.raiseErr .endInput e).outCap = s.outCap := rfl
@[simp] theorem State.raiseErr_endInput_pending (e : ErrCode) : (s.raiseErr .endInput e).pending = s.pending := rfl
@[simp] theorem State.raiseErr_endInput_answers (e : ErrCode) : (s.raiseErr .endInput e).answers = s.answers := rfl

end Sys2Proof.Machine
end

