-- ==== Sys2Proof/Laws/Ops.lean ====
section
/-! SUPPORT. What emission, error entry and the datapath rules can do, said once: if a rule answers a state, which cases
hold; if it answers an error, which. -/

namespace Sys2Proof.Machine

theorem capFits_iff_room (s : State) (n : Nat) : capFits s.outCap s.out.length n = true ↔ s.room n := by
  unfold capFits State.room
  cases s.outCap <;> simp

theorem emit_ok_iff (us : List Byte) (s t : State) :
    emit us s = .ok t ↔ s.room us.length ∧ t = s.appendOut us := by
  rw [← capFits_iff_room]
  by_cases h : capFits s.outCap s.out.length us.length = true <;>
    simp [emit, h, eq_comm (a := s.appendOut us)]

theorem emit_error_iff (us : List Byte) (s : State) (e : ErrCode) :
    emit us s = .error e ↔ ¬ s.room us.length ∧ e = .allocationFailure := by
  rw [← capFits_iff_room]
  by_cases h : capFits s.outCap s.out.length us.length = true <;>
    simp [emit, h, eq_comm (a := ErrCode.allocationFailure)]

theorem emit_of_room {us : List Byte} {s : State} (h : s.room us.length) : emit us s = .ok (s.appendOut us) :=
  (emit_ok_iff us s _).2 ⟨h, rfl⟩

theorem emit_of_not_room {us : List Byte} {s : State} (h : ¬ s.room us.length) :
    emit us s = .error .allocationFailure :=
  (emit_error_iff us s _).2 ⟨h, rfl⟩

theorem map_ok_iff {ε α β : Type} (x : Except ε α) (f : α → β) (b : β) :
    x.map f = .ok b ↔ ∃ a, x = .ok a ∧ b = f a := by
  cases x <;> simp [Except.map, eq_comm]

theorem map_error_iff {ε α β : Type} (x : Except ε α) (f : α → β) (e : ε) :
    x.map f = .error e ↔ x = .error e := by
  cases x <;> simp [Except.map]

@[simp] theorem settle_ok (r : Raiser) (s t : State) : settle r s (.ok t) = t := rfl

@[simp] theorem settle_error (r : Raiser) (s : State) (e : ErrCode) : settle r s (.error e) = s.raiseErr r e := rfl

/-- R103: the three ways a DATA of an encode succeeds. -/
theorem encData_ok {u : Byte} {s t : State} (h : encData u s = .ok t) :
    (s.ec = 0 ∧ t = s.setGroup (pack u 0#8 0#8) 1) ∨
    (s.ec = 1 ∧ t = s.setGroup (pack (byteHigh s.eg) u 0#8) 2) ∨
    (s.ec = 2 ∧ s.room 4 ∧
      t = (s.appendOut (groupChars (cfgAlph s.cfg) (pack (byteHigh s.eg) (byteMid s.eg) u))).setGroup 0#24 0) := by
  unfold encData at h
  split at h
  · exact .inl ⟨‹_›, by simpa using h.symm⟩
  · exact .inr (.inl ⟨‹_›, by simpa using h.symm⟩)
  · obtain ⟨a, ha, rfl⟩ := (map_ok_iff _ _ _).1 h
    obtain ⟨hr, rfl⟩ := (emit_ok_iff _ _ _).1 ha
    exact .inr (.inr ⟨‹_›, hr, rfl⟩)

/-- R103, R154: the one way it fails. -/
theorem encData_error {u : Byte} {s : State} {e : ErrCode} (h : encData u s = .error e) :
    e = .allocationFailure ∧ s.ec = 2 ∧ ¬ s.room 4 := by
  unfold encData at h
  split at h
  · simp at h
  · simp at h
  · obtain ⟨hr, rfl⟩ := (emit_error_iff _ _ _).1 ((map_error_iff _ _ _).1 h)
    exact ⟨rfl, ‹_›, hr⟩

/-- R104: the three ways END of an encode succeeds. -/
theorem encEnd_ok {s t : State} (h : encEnd s = .ok t) :
    (s.ec = 0 ∧ t = s) ∨
    (s.ec = 1 ∧ s.room 4 ∧ t = (s.appendOut (tailChars1 (cfgAlph s.cfg) s.eg)).setGroup 0#24 0) ∨
    (s.ec = 2 ∧ s.room 4 ∧ t = (s.appendOut (tailChars2 (cfgAlph s.cfg) s.eg)).setGroup 0#24 0) := by
  unfold encEnd at h
  split at h
  · exact .inl ⟨‹_›, by simpa using h.symm⟩
  · obtain ⟨a, ha, rfl⟩ := (map_ok_iff _ _ _).1 h
    obtain ⟨hr, rfl⟩ := (emit_ok_iff _ _ _).1 ha
    exact .inr (.inl ⟨‹_›, hr, rfl⟩)
  · obtain ⟨a, ha, rfl⟩ := (map_ok_iff _ _ _).1 h
    obtain ⟨hr, rfl⟩ := (emit_ok_iff _ _ _).1 ha
    exact .inr (.inr ⟨‹_›, hr, rfl⟩)

/-- R104, R154: the one way it fails. -/
theorem encEnd_error {s : State} {e : ErrCode} (h : encEnd s = .error e) :
    e = .allocationFailure ∧ s.ec ≠ 0 ∧ ¬ s.room 4 := by
  unfold encEnd at h
  split at h
  · simp at h
  all_goals
    obtain ⟨hr, rfl⟩ := (emit_error_iff _ _ _).1 ((map_error_iff _ _ _).1 h)
    exact ⟨rfl, by simp [*], hr⟩

/-- R124: the three ways a quantum ends well. -/
theorem terminate_ok {s t : State} (h : terminate s = .ok t) :
    (s.dk = 0 ∧ t = s) ∨
    (s.dk = 2 ∧ s.room 1 ∧ t = (s.appendOut [byteHigh s.dq]).setQuantum 0#24 0) ∨
    (s.dk = 3 ∧ s.room 2 ∧ t = (s.appendOut [byteHigh s.dq, byteMid s.dq]).setQuantum 0#24 0) := by
  unfold terminate at h
  split at h
  · exact .inl ⟨‹_›, by simpa using h.symm⟩
  · simp at h
  · obtain ⟨a, ha, rfl⟩ := (map_ok_iff _ _ _).1 h
    obtain ⟨hr, rfl⟩ := (emit_ok_iff _ _ _).1 ha
    exact .inr (.inl ⟨‹_›, hr, rfl⟩)
  · obtain ⟨a, ha, rfl⟩ := (map_ok_iff _ _ _).1 h
    obtain ⟨hr, rfl⟩ := (emit_ok_iff _ _ _).1 ha
    exact .inr (.inr ⟨‹_›, hr, rfl⟩)

/-- R124, R152, R154: the ways it does not. -/
theorem terminate_error {s : State} {e : ErrCode} (h : terminate s = .error e) :
    (s.dk = 1 ∧ e = .truncatedInput) ∨
    (e = .allocationFailure ∧ ((s.dk = 2 ∧ ¬ s.room 1) ∨ (s.dk = 3 ∧ ¬ s.room 2))) := by
  unfold terminate at h
  split at h
  · simp at h
  · exact .inl ⟨‹_›, by simpa using h.symm⟩
  · obtain ⟨hr, rfl⟩ := (emit_error_iff _ _ _).1 ((map_error_iff _ _ _).1 h)
    exact .inr ⟨rfl, .inl ⟨‹_›, hr⟩⟩
  · obtain ⟨hr, rfl⟩ := (emit_error_iff _ _ _).1 ((map_error_iff _ _ _).1 h)
    exact .inr ⟨rfl, .inr ⟨‹_›, hr⟩⟩

/-- R125: the two ways a data character is taken. -/
theorem acceptSextet_ok {v : Sextet} {s t : State} (h : acceptSextet v s = .ok t) :
    (s.dk ≠ 3 ∧ t = s.setQuantum (insertSextet s.dq s.dk v) (s.dk + 1)) ∨
    (s.dk = 3 ∧ s.room 3 ∧
      t = (s.appendOut (quantumBytes (insertSextet s.dq s.dk v))).setQuantum 0#24 0) := by
  unfold acceptSextet at h
  split at h
  · obtain ⟨a, ha, rfl⟩ := (map_ok_iff _ _ _).1 h
    obtain ⟨hr, rfl⟩ := (emit_ok_iff _ _ _).1 ha
    exact .inr ⟨‹_›, hr, rfl⟩
  · exact .inl ⟨‹_›, by simpa using h.symm⟩

/-- R125, R154: the one way it is not. -/
theorem acceptSextet_error {v : Sextet} {s : State} {e : ErrCode} (h : acceptSextet v s = .error e) :
    e = .allocationFailure ∧ s.dk = 3 ∧ ¬ s.room 3 := by
  unfold acceptSextet at h
  split at h
  · obtain ⟨hr, rfl⟩ := (emit_error_iff _ _ _).1 ((map_error_iff _ _ _).1 h)
    exact ⟨rfl, ‹_›, hr⟩
  · simp at h

/-- R121, R122, R125: which rule a unit of a decode goes to. -/
theorem decData_eq (u : Byte) (s : State) :
    (∃ v, classify (cfgAlph s.cfg) u = .data v ∧ decData u s = acceptSextet v s) ∨
    (classify (cfgAlph s.cfg) u = .other ∧ cfgStrict s.cfg = true ∧ decData u s = .error .invalidCharacter) ∨
    ((classify (cfgAlph s.cfg) u = .pad ∨ (classify (cfgAlph s.cfg) u = .other ∧ cfgStrict s.cfg = false)) ∧
      decData u s = terminate s) := by
  unfold decData
  cases h : classify (cfgAlph s.cfg) u with
  | data v => exact .inl ⟨v, rfl, rfl⟩
  | pad => exact .inr (.inr ⟨.inl rfl, rfl⟩)
  | other =>
    cases hs : cfgStrict s.cfg with
    | true => exact .inr (.inl ⟨rfl, rfl, by simp⟩)
    | false => exact .inr (.inr ⟨.inr ⟨rfl, rfl⟩, by simp⟩)

end Sys2Proof.Machine
end

