-- ==== Sys2Proof/Laws/Step.lean ====
section
/-! SUPPORT. What a transaction and a step can do, said once. -/

namespace Sys2Proof.Machine

/-- R92: DATA in RUN. -/
theorem exec_data_run {s : State} (h : s.phase = .run) (u : Byte) :
    exec (.data u) s = .next (settle .data s.countUnit (datapathData u s.countUnit)) := by
  simp [exec, execData, h]

/-- R94: DATA in DRAIN. -/
theorem exec_data_drain {s : State} (h : s.phase = .drain) (u : Byte) : exec (.data u) s = .next s := by
  simp [exec, execData, h]

/-- R93: END in RUN. -/
theorem exec_end_run {s : State} (h : s.phase = .run) :
    exec .endInput s = .next ((settle .endInput s (datapathEnd s)).setPhase .done) := by
  simp [exec, execEnd, h]

/-- R95: END in DRAIN. -/
theorem exec_end_drain {s : State} (h : s.phase = .drain) : exec .endInput s = .next (s.setPhase .done) := by
  simp [exec, execEnd, h]

/-- R92 to R95: DATA and END go on only in RUN and DRAIN. -/
theorem phase_of_exec_next {i : Instr} {s t : State} (hi : (∃ u, i = .data u) ∨ i = .endInput)
    (h : exec i s = .next t) : s.phase = .run ∨ s.phase = .drain := by
  rcases hi with ⟨u, rfl⟩ | rfl
  · simp only [exec, execData] at h
    cases hp : s.phase <;> simp_all
  · simp only [exec, execEnd] at h
    cases hp : s.phase <;> simp_all

/-- R90 to R95: every way `exec` answers a next state. -/
theorem exec_next {i : Instr} {s t : State} (h : exec i s = .next t) :
    (∃ a st, i = .cmdEncode a st ∧ (s.phase = .idle ∨ s.phase = .done) ∧
      t = s.startOperation (cfgValue .encode a st)) ∨
    (∃ a st, i = .cmdDecode a st ∧ (s.phase = .idle ∨ s.phase = .done) ∧
      t = s.startOperation (cfgValue .decode a st)) ∨
    (∃ u, i = .data u ∧ s.phase = .drain ∧ t = s) ∨
    (∃ u, i = .data u ∧ s.phase = .run ∧ t = settle .data s.countUnit (datapathData u s.countUnit)) ∨
    (i = .endInput ∧ s.phase = .drain ∧ t = s.setPhase .done) ∨
    (i = .endInput ∧ s.phase = .run ∧ t = (settle .endInput s (datapathEnd s)).setPhase .done) := by
  cases i with
  | cmdEncode a st =>
    simp only [exec, execCmdEncode] at h
    cases hp : s.phase <;> simp only [hp, Host.Outcome.next.injEq, reduceCtorEq] at h <;> subst h <;>
      exact .inl ⟨a, st, rfl, by simp, rfl⟩
  | cmdDecode a st =>
    simp only [exec, execCmdDecode] at h
    cases hp : s.phase <;> simp only [hp, Host.Outcome.next.injEq, reduceCtorEq] at h <;> subst h <;>
      exact .inr (.inl ⟨a, st, rfl, by simp, rfl⟩)
  | data u =>
    simp only [exec, execData] at h
    split at h <;> simp_all [eq_comm]
  | endInput =>
    simp only [exec, execEnd] at h
    split at h <;> simp_all [eq_comm]

/-- R59, R96, R97, R170: every way `step` answers a next state. -/
theorem step_next {s t : State} (h : step s = .next t) :
    (s.pending = [] ∧ t = s) ∨
    (∃ w i rest, s.pending = .word w :: rest ∧ decode w = .ok i ∧ exec i s.consume = .next t) ∨
    (∃ rest, s.pending = .reset :: rest ∧ t = s.consume.resetBlock) ∨
    (∃ n a rest, s.pending = .readReg n :: rest ∧ regRead n s.consume = some a ∧ t = s.consume.answer a) ∨
    (∃ i a rest, s.pending = .readOut i :: rest ∧ outRead i s.consume = some a ∧ t = s.consume.answer a) := by
  unfold step at h
  cases hp : s.pending with
  | nil => simp_all
  | cons e rest =>
    rw [hp] at h
    cases e with
    | word w =>
      simp only [stepEvent, stepWord] at h
      split at h
      · exact .inr (.inl ⟨w, _, rest, rfl, ‹_›, h⟩)
      · simp at h
    | reset => exact .inr (.inr (.inl ⟨rest, rfl, by simpa [stepEvent] using h.symm⟩))
    | readReg n =>
      simp only [stepEvent, hostReadReg] at h
      split at h
      · exact .inr (.inr (.inr (.inl ⟨n, _, rest, rfl, ‹_›, by simpa using h.symm⟩)))
      · simp at h
    | readOut i =>
      simp only [stepEvent, hostReadOut] at h
      split at h
      · exact .inr (.inr (.inr (.inr ⟨i, _, rest, rfl, ‹_›, by simpa using h.symm⟩)))
      · simp at h

/-- A step on a legal word is the meaning of its transaction on the state without that word. -/
theorem step_word {s : State} {w : TWord} {i : Instr} {rest : List PortEvent}
    (hp : s.pending = .word w :: rest) (hd : decode w = .ok i) : step s = exec i s.consume := by
  simp [step, hp, stepEvent, stepWord, hd]

theorem runSteps_one {n : Nat} {s t : State} (h : step s = .next t) : runSteps (n + 1) s = runSteps n t := by
  simp [runSteps, h]

end Sys2Proof.Machine
end

