-- ==== Sys2Proof/Laws/Datapath.lean ====
section
/-! SUPPORT. The two datapaths under one roof: what every successful rule leaves alone, and exactly when each error is
raised (60_exceptions.md R151, R152, R154). -/

namespace Sys2Proof.Machine

/-- What a successful datapath rule changes: OUT by at most one whole emission that fits, and its own registers. -/
structure DatapathFrame (s t : State) : Prop where
  phase : t.phase = s.phase
  cfg : t.cfg = s.cfg
  err : t.err = s.err
  inCnt : t.inCnt = s.inCnt
  outCap : t.outCap = s.outCap
  pending : t.pending = s.pending
  answers : t.answers = s.answers
  out : ∃ us, t.out = s.out ++ us ∧ (us = [] ∨ s.room us.length) ∧
    (cfgOp s.cfg = .encode → us = [] ∨ us.length = 4) ∧ (cfgOp s.cfg = .decode → us.length < 4)
  encode : cfgOp s.cfg = .encode → t.dq = s.dq ∧ t.dk = s.dk
  decode : cfgOp s.cfg = .decode → t.eg = s.eg ∧ t.ec = s.ec

/-- The shape every rule's success has: one emission, or none, and then its own registers. -/
theorem frame_of_emission {s t : State} (us : List Byte) (hout : t.out = s.out ++ us)
    (hrest : t.phase = s.phase ∧ t.cfg = s.cfg ∧ t.err = s.err ∧ t.inCnt = s.inCnt ∧ t.outCap = s.outCap ∧
      t.pending = s.pending ∧ t.answers = s.answers)
    (hroom : us = [] ∨ s.room us.length)
    (henc : cfgOp s.cfg = .encode → (us = [] ∨ us.length = 4) ∧ t.dq = s.dq ∧ t.dk = s.dk)
    (hdec : cfgOp s.cfg = .decode → us.length < 4 ∧ t.eg = s.eg ∧ t.ec = s.ec) : DatapathFrame s t :=
  ⟨hrest.1, hrest.2.1, hrest.2.2.1, hrest.2.2.2.1, hrest.2.2.2.2.1, hrest.2.2.2.2.2.1, hrest.2.2.2.2.2.2,
    ⟨us, hout, hroom, fun h => (henc h).1, fun h => (hdec h).1⟩, fun h => (henc h).2, fun h => (hdec h).2⟩

theorem terminate_frame {s t : State} (hop : cfgOp s.cfg = .decode) (h : terminate s = .ok t) : DatapathFrame s t := by
  obtain ⟨_, rfl⟩ | ⟨_, hr, rfl⟩ | ⟨_, hr, rfl⟩ := terminate_ok h
  · exact frame_of_emission [] (by simp) (by simp) (.inl rfl) (by simp) (by simp)
  · exact frame_of_emission _ rfl (by simp) (.inr hr) (by simp [hop]) (by simp)
  · exact frame_of_emission _ rfl (by simp) (.inr hr) (by simp [hop]) (by simp)

theorem datapathData_frame {u : Byte} {s t : State} (h : datapathData u s = .ok t) : DatapathFrame s t := by
  unfold datapathData at h
  split at h
  · rename_i hop
    obtain ⟨_, rfl⟩ | ⟨_, rfl⟩ | ⟨_, hr, rfl⟩ := encData_ok h
    · exact frame_of_emission [] (by simp) (by simp) (.inl rfl) (by simp) (by simp [hop])
    · exact frame_of_emission [] (by simp) (by simp) (.inl rfl) (by simp) (by simp [hop])
    · exact frame_of_emission _ rfl (by simp) (.inr hr) (by simp [groupChars]) (by simp [hop])
  · rename_i hop
    obtain ⟨v, _, he⟩ | ⟨_, _, he⟩ | ⟨_, he⟩ := decData_eq u s <;> rw [he] at h
    · obtain ⟨_, rfl⟩ | ⟨_, hr, rfl⟩ := acceptSextet_ok h
      · exact frame_of_emission [] (by simp) (by simp) (.inl rfl) (by simp [hop]) (by simp)
      · exact frame_of_emission _ rfl (by simp) (.inr hr) (by simp [hop]) (by simp [quantumBytes])
    · simp at h
    · exact terminate_frame hop h

theorem datapathEnd_frame {s t : State} (h : datapathEnd s = .ok t) : DatapathFrame s t := by
  unfold datapathEnd at h
  split at h
  · rename_i hop
    obtain ⟨_, rfl⟩ | ⟨_, hr, rfl⟩ | ⟨_, hr, rfl⟩ := encEnd_ok h
    · exact frame_of_emission [] (by simp) (by simp) (.inl rfl) (by simp) (by simp)
    · exact frame_of_emission _ rfl (by simp) (.inr hr) (by simp [tailChars1]) (by simp [hop])
    · exact frame_of_emission _ rfl (by simp) (.inr hr) (by simp [tailChars2]) (by simp [hop])
  · exact terminate_frame ‹_› h

/-- R122: a unit that stops the quantum goes to `Terminate()`. -/
theorem decData_of_stop {s : State} {u : Byte}
    (h : u = 0x3D#8 ∨ (revLUT (cfgAlph s.cfg) u = none ∧ cfgStrict s.cfg = false)) : decData u s = terminate s := by
  obtain ⟨v, hc, _⟩ | ⟨hc, hs, _⟩ | ⟨_, he⟩ := decData_eq u s
  · rw [classify_eq_data_iff] at hc
    rcases h with rfl | ⟨h, _⟩
    · exact absurd (revLUT_padCode (cfgAlph s.cfg)) (by simp [padCode, hc])
    · simp [h] at hc
  · rw [classify_eq_other_iff] at hc
    rcases h with rfl | ⟨_, h'⟩
    · simp [padCode] at hc
    · simp [hs] at h'
  · exact he

/-- R124: exactly when `Terminate()` raises. -/
theorem terminate_error_iff (s : State) (e : ErrCode) :
    terminate s = .error e ↔
      (e = .truncatedInput ∧ s.dk = 1) ∨
      (e = .allocationFailure ∧ ((s.dk = 3 ∧ ¬ s.room 2) ∨ (s.dk = 2 ∧ ¬ s.room 1))) := by
  constructor
  · intro h
    rcases terminate_error h with ⟨hk, rfl⟩ | ⟨rfl, ⟨hk, hr⟩ | ⟨hk, hr⟩⟩
    · exact .inl ⟨rfl, hk⟩
    · exact .inr ⟨rfl, .inr ⟨hk, hr⟩⟩
    · exact .inr ⟨rfl, .inl ⟨hk, hr⟩⟩
  · rintro (⟨rfl, hk⟩ | ⟨rfl, ⟨hk, hr⟩ | ⟨hk, hr⟩⟩) <;> simp only [terminate, hk]
    · rw [emit_of_not_room (by exact hr)]; rfl
    · rw [emit_of_not_room (by exact hr)]; rfl

/-- R103, R125: exactly when DATA raises in RUN. -/
theorem datapathData_error_iff (u : Byte) (s : State) (e : ErrCode) :
    datapathData u s = .error e ↔
      (e = .allocationFailure ∧ cfgOp s.cfg = .encode ∧ s.ec = 2 ∧ ¬ s.room 4) ∨
      (e = .allocationFailure ∧ cfgOp s.cfg = .decode ∧ (∃ v, revLUT (cfgAlph s.cfg) u = some v) ∧ s.dk = 3 ∧
        ¬ s.room 3) ∨
      (e = .invalidCharacter ∧ cfgOp s.cfg = .decode ∧ cfgStrict s.cfg = true ∧ revLUT (cfgAlph s.cfg) u = none ∧
        u ≠ 0x3D#8) ∨
      (cfgOp s.cfg = .decode ∧ (u = 0x3D#8 ∨ (revLUT (cfgAlph s.cfg) u = none ∧ cfgStrict s.cfg = false)) ∧
        terminate s = .error e) := by
  constructor
  · intro h
    unfold datapathData at h
    split at h
    · obtain ⟨ha, hb, hc⟩ := encData_error h
      exact .inl ⟨ha, ‹_›, hb, hc⟩
    · right
      obtain ⟨v, hc, he⟩ | ⟨hc, hs, he⟩ | ⟨hc, he⟩ := decData_eq u s <;> rw [he] at h
      · obtain ⟨ha, hb, hr⟩ := acceptSextet_error h
        exact .inl ⟨ha, ‹_›, ⟨v, (classify_eq_data_iff _ _ _).1 hc⟩, hb, hr⟩
      · cases h
        have := (classify_eq_other_iff _ _).1 hc
        exact .inr (.inl ⟨rfl, ‹_›, hs, this.1, this.2⟩)
      · refine .inr (.inr ⟨‹_›, ?_, h⟩)
        rcases hc with hc | ⟨hc, hs⟩
        · exact .inl ((classify_eq_pad_iff _ _).1 hc)
        · exact .inr ⟨((classify_eq_other_iff _ _).1 hc).1, hs⟩
  · rintro (⟨rfl, ho, he, hr⟩ | ⟨rfl, ho, ⟨v, hv⟩, hk, hr⟩ | ⟨rfl, ho, hs, hv, hu⟩ | ⟨ho, hu, h⟩)
    · simp only [datapathData, ho, encData, he]
      rw [emit_of_not_room (by exact hr)]; rfl
    · simp only [datapathData, ho, decData, (classify_eq_data_iff _ _ _).2 hv, acceptSextet, hk, if_true]
      rw [emit_of_not_room (by exact hr)]; rfl
    · simp only [datapathData, ho, decData, (classify_eq_other_iff _ _).2 ⟨hv, hu⟩, hs, if_true]
    · simp only [datapathData, ho, decData_of_stop hu, h]

/-- R104, R126: exactly when END raises in RUN. -/
theorem datapathEnd_error_iff (s : State) (e : ErrCode) :
    datapathEnd s = .error e ↔
      (e = .allocationFailure ∧ cfgOp s.cfg = .encode ∧ s.ec ≠ 0 ∧ ¬ s.room 4) ∨
      (cfgOp s.cfg = .decode ∧ terminate s = .error e) := by
  constructor
  · intro h
    unfold datapathEnd at h
    split at h
    · obtain ⟨ha, hb, hc⟩ := encEnd_error h
      exact .inl ⟨ha, ‹_›, hb, hc⟩
    · exact .inr ⟨‹_›, h⟩
  · rintro (⟨rfl, ho, he, hr⟩ | ⟨ho, h⟩)
    · simp only [datapathEnd, ho, encEnd]
      split
      · exact absurd ‹_› he
      · rw [emit_of_not_room (by exact hr)]; rfl
      · rw [emit_of_not_room (by exact hr)]; rfl
    · simpa only [datapathEnd, ho, decEnd] using h

end Sys2Proof.Machine
end

