-- ==== Sys2Proof/Laws/PerInstr.lean ====
section
/-! SUPPORT. The per-transaction family `LegalEncoding`: the word of every transaction is one of the 265 legal words and
matches the row of the opcode map that carries its mnemonic (30_encoding.md R75, R78). -/

namespace Sys2Proof.Laws.LegalEncoding

/-- R75, R78, of one transaction. -/
def Statement (i : Instr) : Prop :=
  legalWord (encode i) = true ∧
    (opcodeMap.filter fun r => r.fits (encode i)).map OpRow.mnemonic = [i.mnemonic]

theorem cmdEncode (alph : Alphabet) (strict : Bool) : Statement (.cmdEncode alph strict) := by
  cases alph <;> cases strict <;> exact ⟨rfl, rfl⟩

theorem cmdDecode (alph : Alphabet) (strict : Bool) : Statement (.cmdDecode alph strict) := by
  cases alph <;> cases strict <;> exact ⟨rfl, rfl⟩

theorem data (unit : Byte) : Statement (.data unit) := by
  have h : ∀ u : Byte, legalWord (encode (.data u)) = true ∧
      (opcodeMap.filter fun r => r.fits (encode (.data u))).map OpRow.mnemonic = [(Instr.data u).mnemonic] := by
    decide
  exact h unit

theorem endInput : Statement .endInput := ⟨rfl, rfl⟩

end Sys2Proof.Laws.LegalEncoding
end

