-- ==== Sys2Proof/Tests/Slice0.lean ====
section
/-! SUPPORT. Tests: ill-formed words and lines refused, words written out from the spec decoded, the spec's worked examples
one step at a time, and for each obligation with hypotheses a state and operands that meet them. Expected values are those
of spec/95_test_vectors.md or of the rule named. -/

namespace Sys2Proof.Tests

open Sys2Proof Sys2Proof.Machine

/-- A small state: reset with capacity `cap`, then PHASE and CFG set. -/
def at_ (cap : Capacity) (ph : Phase) (cfg : Byte) : State := { State.resetWith cap with phase := ph, cfg := cfg }

/-- A small state with the given events at the port. -/
def port (es : List PortEvent) : State := { State.resetWith none with pending := es }

/-! ### The checks of WellFormed refuse -/

theorem test_reserved_cmd_bits_refused : legalWord 0x008#10 = false := by decide
theorem test_end_payload_refused : legalWord 0x201#10 = false := by decide
theorem test_reserved_kind_refused : legalWord 0x3FF#10 = false := by decide
theorem test_byte_256_refused : (AsmByte.num 256).wellFormed = false := by decide
theorem test_non_ascii_char_refused : (AsmByte.chr 'é').wellFormed = false := by decide
theorem test_line_with_byte_256_refused :
    (AsmLine.data (.num 256)).wellFormed = false ∧ (AsmLine.datab [.num 1, .num 256]).wellFormed = false ∧
    (AsmLine.encode .standard [.num 256]).wellFormed = false ∧ (AsmLine.datas ['é']).wellFormed = false ∧
    (AsmLine.decode .standard ['é']).wellFormed = false := by decide

/-! ### Words written out bit by bit (R78) -/

theorem test_decode_cmdEncode : decode 0b0000000010#10 = .ok (.cmdEncode .urlSafe false) := rfl
theorem test_decode_cmdDecode : decode 0b0000000101#10 = .ok (.cmdDecode .standard true) := rfl
theorem test_decode_data : decode 0b0101001101#10 = .ok (.data 0x4D#8) := rfl
theorem test_decode_end : decode 0b1000000000#10 = .ok .endInput := rfl
theorem test_decodeTableWord :
    decodeTableWord 16 0x005 = some (.cmdDecode .standard true) ∧ decodeTableWord 16 0x14D = some (.data 0x4D#8) ∧
    decodeTableWord 16 0x405 = none := by decide
theorem test_withFetchWord : ((State.resetWith none).withFetchWord 16 0x005).pending = [.word 0x005#10] := by decide

/-! ### The look-up tables and fields (the class, splitter and reassembler vectors of 95 section 2) -/

theorem test_class_standard :
    [0x41#8, 0x5A#8, 0x61#8, 0x7A#8, 0x30#8, 0x39#8, 0x2B#8, 0x2F#8, 0x2D#8, 0x5F#8, 0x3D#8, 0x40#8, 0x5B#8, 0x60#8, 0x7B#8,
      0x2E#8, 0x3A#8, 0x00#8, 0x80#8, 0xC1#8, 0xFF#8].map (classify .standard) =
    [.data 0#6, .data 25#6, .data 26#6, .data 51#6, .data 52#6, .data 61#6, .data 62#6, .data 63#6, .other, .other, .pad,
      .other, .other, .other, .other, .other, .other, .other, .other, .other, .other] := by decide
theorem test_class_urlSafe :
    [0x2B#8, 0x2F#8, 0x2D#8, 0x5F#8, 0x3D#8].map (classify .urlSafe) =
    [.other, .other, .data 62#6, .data 63#6, .pad] := by decide
theorem test_split_Mon : [lane 0x4D6F6E#24 0, lane 0x4D6F6E#24 1, lane 0x4D6F6E#24 2, lane 0x4D6F6E#24 3] =
    [19#6, 22#6, 61#6, 46#6] := by decide
theorem test_insert_TW9u :
    insertSextet 0#24 0 19#6 = 0x4C0000#24 ∧ insertSextet 0x4C0000#24 1 22#6 = 0x4D6000#24 ∧
    insertSextet 0x4D6000#24 2 61#6 = 0x4D6F40#24 ∧ insertSextet 0x4D6F40#24 3 46#6 = 0x4D6F6E#24 := by decide

/-! ### One transaction at a time -/

/-- CT3: 0x004 from reset gives CFG 0x04 and STATUS 0x01. -/
theorem test_cmdEncode_CT3 :
    ∃ t, exec (.cmdEncode .standard true) (State.resetWith none) = .next t ∧ t.cfg = 0x04#8 ∧ t.status = 0x01#8 :=
  ⟨_, rfl, by decide, by decide⟩
/-- CT2: 0x007 from reset gives CFG 0x07 and STATUS 0x01. -/
theorem test_cmdDecode_CT2 :
    ∃ t, exec (.cmdDecode .urlSafe true) (State.resetWith none) = .next t ∧ t.cfg = 0x07#8 ∧ t.status = 0x01#8 :=
  ⟨_, rfl, by decide, by decide⟩
/-- P4, transactions 4 and 7: the third byte of "Mon" fits in OUT_CAP = 4, and that of "key" after it does not. -/
theorem test_data_P4 :
    (∃ t, exec (.data 0x6E#8) { at_ (some 4) .run 0x00#8 with eg := 0x4D6F00#24, ec := 2 } = .next t ∧
      t.out = [0x54#8, 0x57#8, 0x39#8, 0x75#8] ∧ t.ec = 0) ∧
    ∃ t, exec (.data 0x79#8) { at_ (some 4) .run 0x00#8 with eg := 0x6B6500#24, ec := 2, out := [1#8, 2#8, 3#8, 4#8] } =
      .next t ∧ t.status = 0x19#8 ∧ t.eg = 0x6B6500#24 ∧ t.inCnt = 1#32 :=
  ⟨⟨_, rfl, by decide, by decide⟩, ⟨_, rfl, by decide, by decide, by decide⟩⟩
/-- P3, transactions 5 and 6: the fourth character of "TW9u", then "!" in strict mode. -/
theorem test_data_P3 :
    (∃ t, exec (.data 0x75#8) { at_ none .run 0x05#8 with dq := 0x4D6F40#24, dk := 3 } = .next t ∧
      t.out = [0x4D#8, 0x6F#8, 0x6E#8] ∧ t.dk = 0) ∧
    ∃ t, exec (.data 0x21#8) (at_ none .run 0x05#8) = .next t ∧ t.status = 0x09#8 ∧ t.inCnt = 1#32 :=
  ⟨⟨_, rfl, by decide, by decide⟩, ⟨_, rfl, by decide, by decide⟩⟩
/-- S1: END after one byte 0x4D emits `TQ==` and STATUS 0x06. -/
theorem test_end_S1 :
    ∃ t, exec .endInput { at_ none .run 0x00#8 with eg := 0x4D0000#24, ec := 1 } = .next t ∧
      t.out = [0x54#8, 0x51#8, 0x3D#8, 0x3D#8] ∧ t.status = 0x06#8 :=
  ⟨_, rfl, by decide, by decide⟩
/-- V8: END with one data character held gives STATUS 0x12. -/
theorem test_end_V8 :
    ∃ t, exec .endInput { at_ none .run 0x05#8 with dq := 0x4C0000#24, dk := 1 } = .next t ∧ t.status = 0x12#8 ∧ t.out = [] :=
  ⟨_, rfl, by decide, by decide⟩
/-- CT18: END in DRAIN with ERR 1 gives STATUS 0x0A. -/
theorem test_end_in_drain_CT18 :
    ∃ t, exec .endInput { at_ none .drain 0x05#8 with err := .invalidCharacter } = .next t ∧ t.status = 0x0A#8 :=
  ⟨_, rfl, by decide⟩
/-- The assembler's text of R79 and R80, with the words that R80 and program P1 give. -/
theorem test_assemble_text :
    (assemble ["CMD DECODE, STANDARD, STRICT ; 0x005".toList, "DATA 'T'".toList, "DATAB 0x57, 56".toList, "END".toList]).map
      (List.map encode) = some [0x005#10, 0x154#10, 0x157#10, 0x138#10, 0x200#10] := by decide
/-- R106 and R129 on S2 and V17: `TW8=` of the bytes "Mo", and `TR==` decodes to "M". -/
theorem test_codec_S2_V17 :
    encodeAll .standard [0x4D#8, 0x6F#8] = [0x54#8, 0x57#8, 0x38#8, 0x3D#8] ∧
    (decodeRun .standard true [0x54#8, 0x52#8, 0x3D#8, 0x3D#8]) = ⟨.none, [0x4D#8], 4⟩ := by decide

/-! ### Witnesses: the hypotheses of each obligation can be met -/

theorem witness_DecodeFollowsTheCases :
    ((0x008#10).extractLsb' 8 2 = 0#2 ∧ (0x008#10).extractLsb' 3 5 ≠ 0#5) ∧
    ((0x006#10).extractLsb' 8 2 = 0#2 ∧ (0x006#10).extractLsb' 3 5 = 0#5 ∧ (0x006#10).getLsbD 0 = false) ∧
    ((0x007#10).extractLsb' 8 2 = 0#2 ∧ (0x007#10).extractLsb' 3 5 = 0#5 ∧ (0x007#10).getLsbD 0 = true) ∧
    (0x1FF#10).extractLsb' 8 2 = 1#2 ∧
    ((0x2FF#10).extractLsb' 8 2 = 2#2 ∧ (0x2FF#10).extractLsb' 0 8 ≠ 0#8) ∧
    ((0x200#10).extractLsb' 8 2 = 2#2 ∧ (0x200#10).extractLsb' 0 8 = 0#8) ∧ (0x300#10).extractLsb' 8 2 = 3#2 := by decide
theorem witness_ReservedWordsAreRefusedByRange :
    [0x008, 0x0FF, 0x201, 0x2FF, 0x300, 0x3FF].all (fun n =>
      decide ((port [.word (BitVec.ofNat 10 n)]).pending = .word (BitVec.ofNat 10 n) :: []) &&
        ((decide (0x008 ≤ n) && decide (n ≤ 0x0FF)) || (decide (0x201 ≤ n) && decide (n ≤ 0x2FF)) ||
          (decide (0x300 ≤ n) && decide (n ≤ 0x3FF)))) = true := by decide
theorem witness_OneRowMatchesEachLegalWord :
    decode 0x007#10 = .ok (.cmdDecode .urlSafe true) ∧ decode 0x3FF#10 = .error .reservedKind := ⟨rfl, rfl⟩
theorem witness_AssemblerMakesOnlyLegalWords :
    decimalText [2, 5, 5] = ['2', '5', '5'] ∧ numeralValue [2, 5, (5 : Fin 10)] = 255 ∧ numeralValue [2, 5, (6 : Fin 10)] = 256 ∧
    hexText [15, 15] = ['F', 'F'] ∧ numeralValue [15, (15 : Fin 16)] = 255 ∧ numeralValue [1, 0, (0 : Fin 16)] = 256 ∧
    decimalListText [[8], [1, 0]] = ['8', ',', ' ', '1', '0'] ∧ (∀ ds ∈ [[8], [1, (0 : Fin 10)]], ds ≠ []) ∧
    255 < 256 ∧ 255 ≤ 255 ∧ AsmByte.num 256 ∈ [AsmByte.num 1, .num 256] ∧
    Char.ofNat 39 ∉ ['E', 'N', 'D'] ∧ Char.ofNat 34 ∉ ['E', 'N', 'D'] := by decide
theorem witness_StepRunsTheDecodedTransaction :
    (port [.word 0x000#10]).pending = .word 0x000#10 :: [] ∧ decode 0x000#10 = .ok (.cmdEncode .standard false) := ⟨rfl, rfl⟩
theorem witness_WithNothingAtThePortStateIsKept : (port []).pending = [] := rfl
theorem witness_HostReadsChangeNothing :
    (∀ n, (port [.readReg n]).pending = .readReg n :: []) ∧ 4 ≤ 4 ∧
    ({ port [.readOut 0] with out := [7#8] }.out[0]? = some 7#8 ∧
      { port [.readOut 0] with out := [7#8] }.pending = .readOut 0 :: []) ∧
    { port [.readOut 1] with out := [7#8] }.out.length ≤ 1 ∧
    { port [.readOut 1] with out := [7#8] }.pending = .readOut 1 :: [] :=
  ⟨fun _ => rfl, by decide, ⟨rfl, rfl⟩, by decide, rfl⟩
theorem witness_StatusIsTheViewOfPhaseAndErr :
    (State.resetWith none).Inv ∧ (at_ none .run 0x05#8).Inv ∧
    ({ at_ none .drain 0x05#8 with err := .truncatedInput }).Inv ∧ (at_ none .done 0x05#8).Inv := by
  refine ⟨?_, ?_, ?_, ?_⟩ <;> decide
theorem witness_ResetSetsEveryRegister :
    (port [.reset]).pending = .reset :: [] ∧
    ∀ p : Phase, p ≠ .idle → { port [.reset] with phase := p }.phase ≠ .idle ∧
      ∃ t, step { port [.reset] with phase := p } = .next t ∧ t.phase = .idle := ⟨rfl, fun _ h => ⟨h, _, rfl, rfl⟩⟩
theorem witness_RefusalsByName :
    ((port [.word 0x201#10]).pending = .word 0x201#10 :: [] ∧ decode 0x201#10 = .error .endPayload) ∧
    (at_ none .drain 0x00#8).phase = .drain ∧ (at_ none .done 0x00#8).phase = .done ∧
    ((port [.readReg 4]).pending = .readReg 4 :: [] ∧ 3 < 4) ∧
    ((port [.readOut 0]).pending = .readOut 0 :: [] ∧ (port [.readOut 0]).out.length ≤ 0) ∧
    step (port [.word 0x200#10]) = .refused .endWhileIdle :=
  ⟨⟨rfl, rfl⟩, rfl, rfl, ⟨rfl, by decide⟩, ⟨rfl, by decide⟩, rfl⟩
theorem witness_CmdEncodeStartsAnOperation :
    (at_ none .done 0x00#8).phase = .done ∧ (at_ none .run 0x00#8).phase = .run ∧
    (∃ t, exec (.cmdEncode .urlSafe true) (at_ none .done 0x00#8) = .next t) ∧
    cfgOp (at_ none .run 0x04#8).cfg = .encode ∧ ∃ t, exec (.data 0x4D#8) (at_ none .run 0x04#8) = .next t :=
  ⟨rfl, rfl, ⟨_, rfl⟩, by decide, ⟨_, rfl⟩⟩
theorem witness_CmdDecodeStartsAnOperation :
    (at_ none .idle 0x00#8).phase = .idle ∧ (at_ none .drain 0x00#8).phase = .drain ∧
    ∃ t, exec (.cmdDecode .urlSafe true) (at_ none .done 0x00#8) = .next t := ⟨rfl, rfl, ⟨_, rfl⟩⟩
theorem witness_CmdForgetsTheLastOperation :
    (∃ t, exec (.cmdDecode .standard true) (State.resetWith none) = .next t) ∧
    (∃ t, exec (.cmdDecode .standard true) { at_ none .done 0x00#8 with out := [7#8], eg := 9#24, ec := 1 } = .next t) ∧
    (State.resetWith none).outCap = (at_ none .done 0x00#8).outCap := ⟨⟨_, rfl⟩, ⟨_, rfl⟩, rfl⟩
/-- DataInDrainChangesNothing, EndInDrainOnlyCloses. -/
theorem witness_DataAndEndInDrain :
    { at_ none .drain 0x05#8 with err := .truncatedInput }.phase = .drain ∧
    ({ at_ none .drain 0x05#8 with err := .truncatedInput }).Inv := by decide
/-- DataOfAnEncode, EndOfAnEncode. -/
theorem witness_DataAndEndOfAnEncode :
    (GroupClean { at_ none .run 0x00#8 with eg := 0xFF0000#24, ec := 1 } ∧
      GroupClean { at_ none .run 0x00#8 with eg := 0xFFFF00#24, ec := 2 }) ∧
    (at_ none .run 0x00#8).phase = .run ∧ cfgOp (at_ none .run 0x00#8).cfg = .encode ∧ (at_ none .run 0x00#8).ec = 0 ∧
    { at_ none .run 0x00#8 with ec := 1 }.ec = 1 ∧ { at_ none .run 0x00#8 with ec := 2 }.ec = 2 ∧
    (at_ (some 4) .run 0x00#8).room 4 ∧ ¬ (at_ (some 3) .run 0x00#8).room 4 :=
  ⟨⟨rfl, rfl⟩, rfl, by decide, rfl, rfl, rfl, fun c h => by cases h; decide, fun h => absurd (h 3 rfl) (by decide)⟩
theorem witness_EncodeRaisesOnlyAllocationFailure :
    (at_ (some 0) .run 0x02#8).phase = .run ∧ (at_ (some 0) .run 0x02#8).err = .none ∧
    cfgOp (at_ (some 0) .run 0x02#8).cfg = .encode := by decide
theorem witness_UnitClasses : 0x7F#8 ≤ (0x7F#8 : Byte) ∧ (0x20#8 : Byte) ≤ 0x20#8 := by decide
theorem witness_DataCharacterOfADecode :
    (at_ none .run 0x01#8).phase = .run ∧ cfgOp (at_ none .run 0x01#8).cfg = .decode ∧
    revLUT (cfgAlph (at_ none .run 0x01#8).cfg) 0x2B#8 = some 62#6 ∧ (at_ none .run 0x01#8).dk = 0 ∧ (0 : Fin 4) ≠ 3 ∧
    { at_ none .run 0x01#8 with dk := 3 }.dk = 3 ∧ (at_ (some 3) .run 0x01#8).room 3 ∧
    ¬ (at_ (some 2) .run 0x01#8).room 3 :=
  ⟨rfl, by decide, by decide, rfl, by decide, rfl, fun c h => by cases h; decide, fun h => absurd (h 2 rfl) (by decide)⟩
/-- StopUnitOfADecode, EndOfADecode. -/
theorem witness_StopUnitAndEndOfADecode :
    (at_ none .run 0x01#8).phase = .run ∧ cfgOp (at_ none .run 0x01#8).cfg = .decode ∧
    revLUT (cfgAlph (at_ none .run 0x01#8).cfg) 0x0A#8 = none ∧ cfgStrict (at_ none .run 0x01#8).cfg = false ∧
    [0, 1, 2, 3].map (fun k : Fin 4 => { at_ none .run 0x01#8 with dk := k }.dk) = [0, 1, 2, 3] ∧
    (at_ (some 1) .run 0x01#8).room 1 ∧ (at_ (some 2) .run 0x01#8).room 2 ∧
    ¬ (at_ (some 0) .run 0x01#8).room 1 ∧ ¬ (at_ (some 1) .run 0x01#8).room 2 :=
  ⟨rfl, by decide, by decide, by decide, by decide, fun c h => by cases h; decide, fun c h => by cases h; decide,
    fun h => absurd (h 0 rfl) (by decide), fun h => absurd (h 1 rfl) (by decide)⟩
theorem witness_InvalidCharacterExactly :
    { at_ none .run 0x05#8 with dk := 1 }.phase = .run ∧ { at_ none .run 0x05#8 with dk := 1 }.err = .none ∧
    cfgOp { at_ none .run 0x05#8 with dk := 1 }.cfg = .decode ∧
    cfgStrict { at_ none .run 0x05#8 with dk := 1 }.cfg = true ∧ revLUT .standard 0x21#8 = none ∧ 0x21#8 ≠ 0x3D#8 ∧
    (∃ t, exec (.data 0x21#8) { at_ none .run 0x05#8 with dk := 1 } = .next t ∧ t.err = .invalidCharacter) ∧
    ∃ t, exec .endInput (at_ none .run 0x05#8) = .next t :=
  ⟨rfl, rfl, by decide, by decide, by decide, by decide, ⟨_, rfl, by decide⟩, ⟨_, rfl⟩⟩
theorem witness_TruncatedInputExactly :
    (at_ none .run 0x05#8).phase = .run ∧ (at_ none .run 0x05#8).err = .none ∧
    (∃ t, exec (.data 0x3D#8) { at_ none .run 0x05#8 with dk := 1 } = .next t ∧ t.err = .truncatedInput) ∧
    ∃ t, exec .endInput { at_ none .run 0x05#8 with dk := 1 } = .next t ∧ t.err = .truncatedInput :=
  ⟨rfl, rfl, ⟨_, rfl, by decide⟩, ⟨_, rfl, by decide⟩⟩
theorem witness_TableInvariants : fwdLUT .standard 61#6 = fwdLUT .standard 61#6 ∧ (61#6 : Sextet) ≤ 61#6 := by decide
/-- EmissionIsAllOrNothing, AllocationFailureExactly. -/
theorem witness_EmissionAndAllocationFailure :
    (∃ t, exec (.data 0x00#8) { at_ (some 4) .run 0x00#8 with ec := 2 } = .next t ∧ t.out.length = 4) ∧
    (∃ t, exec (.data 0x00#8) { at_ (some 3) .run 0x00#8 with ec := 2 } = .next t ∧ t.err = .allocationFailure) ∧
    (∃ t, exec .endInput { at_ (some 1) .run 0x01#8 with dk := 3 } = .next t ∧ t.err = .allocationFailure) ∧
    (at_ none .run 0x00#8).outCap = none :=
  ⟨⟨_, rfl, by decide⟩, ⟨_, rfl, by decide⟩, ⟨_, rfl, by decide⟩, rfl⟩
theorem witness_ErrorsArePrecise :
    (∃ t, exec (.data 0x21#8) (at_ none .run 0x05#8) = .next t ∧ t.err ≠ .none) ∧
    (∃ t, exec .endInput { at_ none .run 0x05#8 with dk := 1 } = .next t ∧ t.err ≠ .none) ∧
    ∃ t, exec (.data 0x21#8) (at_ none .drain 0x05#8) = .next t :=
  ⟨⟨_, rfl, by decide⟩, ⟨_, rfl, by decide⟩, ⟨_, rfl⟩⟩
theorem witness_ErrStaysUntilTheNextCmd :
    (∃ t, step { port [.word 0x000#10] with phase := .done, err := .truncatedInput } = .next t ∧ t.err ≠ .truncatedInput) ∧
    ∃ t, step { port [.reset] with phase := .drain, err := .truncatedInput } = .next t ∧ t.err ≠ .truncatedInput :=
  ⟨⟨_, rfl, by decide⟩, ⟨_, rfl, by decide⟩⟩
/-- InCntCountsTheUnitsOfTheOperation, FrameOfDataAndEnd, DatapathsNeverReadEachOther. -/
theorem witness_OverAllTransactions :
    (∃ t, exec (.cmdEncode .standard false) (at_ none .idle 0x00#8) = .next t) ∧
    (∃ t, exec (.cmdDecode .standard false) (at_ none .idle 0x00#8) = .next t) ∧
    (∃ t, exec (.data 0x41#8) (at_ none .run 0x01#8) = .next t ∧ cfgOp (at_ none .run 0x01#8).cfg = .decode) ∧
    (∃ t, exec (.data 0x41#8) (at_ none .run 0x00#8) = .next t ∧ cfgOp (at_ none .run 0x00#8).cfg = .encode) ∧
    (∃ t, exec (.data 0x41#8) (at_ none .drain 0x00#8) = .next t) ∧
    ∃ t, exec .endInput (at_ none .run 0x00#8) = .next t :=
  ⟨⟨_, rfl⟩, ⟨_, rfl⟩, ⟨_, rfl, by decide⟩, ⟨_, rfl, by decide⟩, ⟨_, rfl⟩, ⟨_, rfl⟩⟩
/-- OutOnlyGrowsWithinAnOperation, PhaseMovesOnlyAsListed, OnlyCmdChangesCfg. -/
theorem witness_StepsThatChangePhaseAndCfg :
    (∃ t, step (port [.word 0x007#10]) = .next t ∧ t.phase ≠ .idle ∧ t.cfg ≠ 0x00#8) ∧
    (∃ t, step { port [.word 0x200#10] with phase := .run } = .next t ∧ t.phase ≠ .run) ∧
    (∃ t, step { port [.word 0x121#10] with phase := .run, cfg := 0x05#8 } = .next t ∧ t.phase ≠ .run) ∧
    ∃ t, step { port [.reset] with phase := .run, cfg := 0x05#8 } = .next t ∧ t.phase ≠ .run ∧ t.cfg ≠ 0x05#8 :=
  ⟨⟨_, rfl, by decide, by decide⟩, ⟨_, rfl, by decide⟩, ⟨_, rfl, by decide⟩, ⟨_, rfl, by decide, by decide⟩⟩
theorem witness_EndClosesTheOperation : (at_ none .run 0x00#8).phase = .run ∧ (at_ none .drain 0x00#8).phase = .drain := by
  decide
theorem witness_InstancesShareNothing :
    0 ≠ 1 ∧ ∃ q r, stepInstance 0 [port [.word 0x000#10], port [.word 0x005#10]] = .next q ∧ stepInstance 1 q = .next r :=
  ⟨by decide, _, _, rfl, rfl⟩
theorem witness_InvKeptByEveryStep :
    (port [.word 0x005#10]).Inv ∧ ∃ t, step (port [.word 0x005#10]) = .next t := ⟨by decide, _, rfl⟩
theorem witness_EncodeOperationIsEncode :
    (port (operationEvents (.cmdEncode .standard false) [0x4D#8] ++ [.reset])).phase = .idle ∧
    (port (operationEvents (.cmdEncode .standard false) [0x4D#8] ++ [.reset])).pending =
      operationEvents (.cmdEncode .standard false) [0x4D#8] ++ [.reset] ∧
    (∀ c, (at_ (some 4) .idle 0x00#8).outCap = some c → 4 * ((1 + 2) / 3) ≤ c.val) ∧
    (at_ (some 3) .idle 0x00#8).outCap = some 3 ∧ (3 : Fin 4294967296).val < 4 * ((1 + 2) / 3) :=
  ⟨rfl, rfl, fun c h => by cases h; decide, rfl, by decide⟩
theorem witness_DecodeOperationIsDecode :
    (port (operationEvents (.cmdDecode .standard true) [0x54#8, 0x51#8])).phase = .idle ∧
    (port (operationEvents (.cmdDecode .standard true) [0x54#8, 0x51#8])).pending =
      operationEvents (.cmdDecode .standard true) [0x54#8, 0x51#8] ++ [] ∧
    decodeAll .standard true [0x54#8, 0x51#8] = .ok [0x4D#8] ∧ decodeAll .standard true [0x54#8] = .error .truncatedInput ∧
    (∀ c, (at_ (some 1) .idle 0x00#8).outCap = some c → (decodeRun .standard true [0x54#8, 0x51#8]).out.length ≤ c.val) ∧
    ∃ c, (at_ (some 0) .idle 0x00#8).outCap = some c ∧ c.val < (decodeRun .standard true [0x54#8, 0x51#8]).out.length :=
  ⟨rfl, rfl, by decide, by decide, fun c h => by cases h; decide, 0, rfl, by decide⟩
theorem witness_LengthOfADecode : 2 ≤ 2 ∧ [19#6, 16#6].length % 4 ≠ 1 ∧ [19#6].length % 4 = 1 := by decide
theorem witness_DroppedBitsAreNotChecked :
    (16#6).extractLsb' 4 2 = (17#6).extractLsb' 4 2 ∧ (60#6).extractLsb' 2 4 = (61#6).extractLsb' 2 4 := by decide
theorem witness_CrossAlphabetInputIsInvalid :
    Alphabet.urlSafe ≠ .standard ∧ fwdLUT .urlSafe 62#6 ∈ encodeAll .urlSafe [0xFB#8] ∧
    fwdLUT .urlSafe 63#6 ∈ encodeAll .urlSafe [0xFF#8] := by decide

end Sys2Proof.Tests
end

/-! What the machine's registers keep (10_state.md R20 to R29): the rules of the shared operations for the part of the
invariant that speaks of neither PHASE nor ERR, which errors a datapath raises, and the invariant itself. -/

namespace Sys2Proof.Machine

/-! ### Group, quantum and character facts -/

/-- R28: shifting out the one byte held leaves nothing. -/
theorem pack_shiftLeft_eight (b0 : Byte) : pack b0 0#8 0#8 <<< 8 = 0#24 := by
  apply BitVec.eq_of_getLsbD_eq
  intro i hi
  rw [BitVec.getLsbD_shiftLeft, pack_getLsbD]
  split_ifs <;> simp
  omega

/-- R28: shifting out the two bytes held leaves nothing. -/
theorem pack_shiftLeft_sixteen (b0 b1 : Byte) : pack b0 b1 0#8 <<< 16 = 0#24 := by
  apply BitVec.eq_of_getLsbD_eq
  intro i hi
  rw [BitVec.getLsbD_shiftLeft, pack_getLsbD]
  split_ifs <;> simp
  all_goals omega

/-- R29: a sextet put next to those held leaves the bits below it zero. -/
theorem insertSextet_shiftLeft {q : Word24} {k : Fin 4} (v : Sextet) (hk : k ≠ 3) (hq : q <<< (6 * k.val) = 0#24) :
    insertSextet q k v <<< (6 * (k + 1).val) = 0#24 := by
  have hv : (k + 1).val = k.val + 1 := Fin.val_add_one_of_lt' (by omega)
  have hheld : q <<< (6 * k.val + 6) = 0#24 := by rw [BitVec.shiftLeft_add, hq]; simp
  have hnew : v.setWidth 24 <<< (18 - 6 * k.val) <<< (6 * k.val + 6) = 0#24 := by
    rw [← BitVec.shiftLeft_add]
    exact BitVec.shiftLeft_eq_zero (by omega)
  rw [insertSextet, BitVec.shiftLeft_or_distrib, hv, Nat.mul_add, Nat.mul_one, hheld, hnew, BitVec.or_zero]

theorem laneChar_lt (a : Alphabet) (w : Word24) (j : Fin 4) : laneChar a w j < 0x80#8 := fwdLUT_lt a _

theorem padCode_lt : padCode < 0x80#8 := by decide

theorem groupChars_lt (a : Alphabet) (w : Word24) : ∀ u ∈ groupChars a w, u < 0x80#8 := by
  simp [groupChars, laneChar_lt]

theorem tailChars1_lt (a : Alphabet) (w : Word24) : ∀ u ∈ tailChars1 a w, u < 0x80#8 := by
  simp [tailChars1, laneChar_lt, padCode_lt]

theorem tailChars2_lt (a : Alphabet) (w : Word24) : ∀ u ∈ tailChars2 a w, u < 0x80#8 := by
  simp [tailChars2, laneChar_lt, padCode_lt]

/-- R55: an empty OUT is within every capacity. -/
theorem capFits_zero (cap : Capacity) : capFits cap 0 0 = true := by
  cases cap <;> simp [capFits]

theorem capFits_add (cap : Capacity) (len n : Nat) : capFits cap (len + n) 0 = capFits cap len n := by
  cases cap <;> simp [capFits]

/-! ### The registers that speak of neither PHASE nor ERR -/

/-- The part of `State.Inv` that speaks of neither PHASE nor ERR. IN_CNT, `pending` and `answers` are not in it either,
so an update of these alone keeps it by definition. -/
def RegsSound (s : State) : Prop :=
  GroupClean s ∧ QuantumClean s ∧ CfgClean s ∧ CapacityKept s ∧ DatapathSound s

theorem inv_iff (s : State) : s.Inv ↔ RegsSound s ∧ PhaseSound s ∧ ErrSound s := by
  constructor
  · rintro ⟨hg, hq, hc, hcap, hphase, hpath, herr⟩
    exact ⟨⟨hg, hq, hc, hcap, hpath⟩, hphase, herr⟩
  · rintro ⟨⟨hg, hq, hc, hcap, hpath⟩, hphase, herr⟩
    exact ⟨hg, hq, hc, hcap, hphase, hpath, herr⟩

theorem regsSound_setPhase {s : State} (h : RegsSound s) (p : Phase) : RegsSound (s.setPhase p) := h

theorem regsSound_raiseErr {s : State} (h : RegsSound s) (r : Raiser) (e : ErrCode) : RegsSound (s.raiseErr r e) := by
  cases r <;> exact h

/-- R55, R56: an emission that fits keeps the registers sound; an encode's has to be whole groups of 7-bit units. -/
theorem regsSound_appendOut {s : State} {us : List Byte} (h : RegsSound s) (hroom : s.room us.length)
    (henc : cfgOp s.cfg = .encode → us.length % 4 = 0 ∧ ∀ u ∈ us, u < 0x80#8) : RegsSound (s.appendOut us) := by
  obtain ⟨hg, hq, hc, _, hE, hD⟩ := h
  refine ⟨hg, hq, hc, ?_, fun hop => ?_, hD⟩
  · simpa [CapacityKept, capFits_add] using (capFits_iff_room s us.length).2 hroom
  · obtain ⟨hdq, hdk, hmod, hlt⟩ := hE hop
    obtain ⟨hmod', hlt'⟩ := henc hop
    refine ⟨hdq, hdk, ?_, fun u hu => ?_⟩
    · rw [State.appendOut_out, List.length_append]
      omega
    · rcases List.mem_append.1 hu with hu | hu
      · exact hlt u hu
      · exact hlt' u hu

theorem regsSound_setGroup {s : State} {g : Word24} {c : Fin 3} (h : RegsSound s) (hop : cfgOp s.cfg = .encode)
    (hclean : g <<< (8 * c.val) = 0#24) : RegsSound (s.setGroup g c) := by
  obtain ⟨_, hq, hc, hcap, hE, _⟩ := h
  exact ⟨hclean, hq, hc, hcap, hE, fun hop' => by simp [hop] at hop'⟩

theorem regsSound_setQuantum {s : State} {q : Word24} {k : Fin 4} (h : RegsSound s) (hop : cfgOp s.cfg = .decode)
    (hclean : q <<< (6 * k.val) = 0#24) : RegsSound (s.setQuantum q k) := by
  obtain ⟨hg, _, hc, hcap, _, hD⟩ := h
  exact ⟨hg, hclean, hc, hcap, fun hop' => by simp [hop] at hop', hD⟩

/-- R103, R104: an encoder's emission and the group it empties. -/
theorem regsSound_emitGroup {s : State} {us : List Byte} (h : RegsSound s) (hop : cfgOp s.cfg = .encode)
    (hroom : s.room us.length) (hlen : us.length = 4) (hlt : ∀ u ∈ us, u < 0x80#8) :
    RegsSound ((s.appendOut us).setGroup 0#24 0) :=
  regsSound_setGroup (regsSound_appendOut h hroom fun _ => ⟨by rw [hlen], hlt⟩) hop rfl

/-- R124, R125: a decoder's emission and the quantum it empties. -/
theorem regsSound_emitQuantum {s : State} {us : List Byte} (h : RegsSound s) (hop : cfgOp s.cfg = .decode)
    (hroom : s.room us.length) : RegsSound ((s.appendOut us).setQuantum 0#24 0) :=
  regsSound_setQuantum (regsSound_appendOut h hroom fun hop' => by simp [hop] at hop') hop rfl

/-! ### The datapath rules keep them -/

theorem encData_keeps_regsSound {u : Byte} {s t : State} (h : RegsSound s) (hop : cfgOp s.cfg = .encode)
    (ht : encData u s = .ok t) : RegsSound t := by
  obtain ⟨_, rfl⟩ | ⟨_, rfl⟩ | ⟨_, hroom, rfl⟩ := encData_ok ht
  · exact regsSound_setGroup h hop (pack_shiftLeft_eight u)
  · exact regsSound_setGroup h hop (pack_shiftLeft_sixteen _ u)
  · exact regsSound_emitGroup h hop hroom rfl (groupChars_lt _ _)

theorem encEnd_keeps_regsSound {s t : State} (h : RegsSound s) (hop : cfgOp s.cfg = .encode)
    (ht : encEnd s = .ok t) : RegsSound t := by
  obtain ⟨_, rfl⟩ | ⟨_, hroom, rfl⟩ | ⟨_, hroom, rfl⟩ := encEnd_ok ht
  · exact h
  · exact regsSound_emitGroup h hop hroom rfl (tailChars1_lt _ _)
  · exact regsSound_emitGroup h hop hroom rfl (tailChars2_lt _ _)

theorem terminate_keeps_regsSound {s t : State} (h : RegsSound s) (hop : cfgOp s.cfg = .decode)
    (ht : terminate s = .ok t) : RegsSound t := by
  obtain ⟨_, rfl⟩ | ⟨_, hroom, rfl⟩ | ⟨_, hroom, rfl⟩ := terminate_ok ht
  · exact h
  · exact regsSound_emitQuantum h hop hroom
  · exact regsSound_emitQuantum h hop hroom

theorem acceptSextet_keeps_regsSound {v : Sextet} {s t : State} (h : RegsSound s) (hop : cfgOp s.cfg = .decode)
    (ht : acceptSextet v s = .ok t) : RegsSound t := by
  obtain ⟨hk, rfl⟩ | ⟨_, hroom, rfl⟩ := acceptSextet_ok ht
  · have ⟨_, hclean, _⟩ := h
    exact regsSound_setQuantum h hop (insertSextet_shiftLeft v hk hclean)
  · exact regsSound_emitQuantum h hop hroom

theorem decData_keeps_regsSound {u : Byte} {s t : State} (h : RegsSound s) (hop : cfgOp s.cfg = .decode)
    (ht : decData u s = .ok t) : RegsSound t := by
  obtain ⟨v, _, he⟩ | ⟨_, _, he⟩ | ⟨_, he⟩ := decData_eq u s <;> rw [he] at ht
  · exact acceptSextet_keeps_regsSound h hop ht
  · simp at ht
  · exact terminate_keeps_regsSound h hop ht

theorem datapathData_keeps_regsSound {u : Byte} {s t : State} (h : RegsSound s) (ht : datapathData u s = .ok t) :
    RegsSound t := by
  unfold datapathData at ht
  split at ht
  · exact encData_keeps_regsSound h ‹_› ht
  · exact decData_keeps_regsSound h ‹_› ht

theorem datapathEnd_keeps_regsSound {s t : State} (h : RegsSound s) (ht : datapathEnd s = .ok t) : RegsSound t := by
  unfold datapathEnd at ht
  split at ht
  · exact encEnd_keeps_regsSound h ‹_› ht
  · exact terminate_keeps_regsSound h ‹_› ht

/-! ### Completion and errors -/

/-- R104: a completed encode holds no byte. -/
theorem encEnd_ok_ec {s t : State} (ht : encEnd s = .ok t) : t.ec = 0 := by
  obtain ⟨hc, rfl⟩ | ⟨_, _, rfl⟩ | ⟨_, _, rfl⟩ := encEnd_ok ht
  · exact hc
  · rfl
  · rfl

/-- R124: a quantum that ended well holds no sextet. -/
theorem terminate_ok_dk {s t : State} (ht : terminate s = .ok t) : t.dk = 0 := by
  obtain ⟨hk, rfl⟩ | ⟨_, _, rfl⟩ | ⟨_, _, rfl⟩ := terminate_ok ht
  · exact hk
  · rfl
  · rfl

/-- R93: an END without an error leaves neither datapath holding anything. -/
theorem datapathEnd_ok_empty {s t : State} (h : RegsSound s) (ht : datapathEnd s = .ok t) : t.ec = 0 ∧ t.dk = 0 := by
  obtain ⟨_, _, _, _, hE, hD⟩ := h
  have hframe := datapathEnd_frame ht
  unfold datapathEnd at ht
  split at ht
  · rename_i hop
    obtain ⟨_, hk⟩ := hframe.encode hop
    obtain ⟨_, hk0, _⟩ := hE hop
    exact ⟨encEnd_ok_ec ht, hk.trans hk0⟩
  · rename_i hop
    obtain ⟨_, hc⟩ := hframe.decode hop
    obtain ⟨_, hc0⟩ := hD hop
    exact ⟨hc.trans hc0, terminate_ok_dk ht⟩

/-- R150: what an error `e` raised under the configuration `c` can be. -/
def Raisable (c : Byte) (e : ErrCode) : Prop :=
  e ≠ .none ∧ (e = .truncatedInput → cfgOp c = .decode) ∧
  (e = .invalidCharacter → cfgOp c = .decode ∧ cfgStrict c = true)

theorem raisable_allocationFailure (c : Byte) : Raisable c .allocationFailure :=
  ⟨nofun, nofun, nofun⟩

theorem terminate_raisable {s : State} {e : ErrCode} (hop : cfgOp s.cfg = .decode) (h : terminate s = .error e) :
    Raisable s.cfg e := by
  obtain ⟨_, rfl⟩ | ⟨rfl, _⟩ := terminate_error h
  · exact ⟨nofun, fun _ => hop, nofun⟩
  · exact raisable_allocationFailure _

theorem datapathData_raisable {u : Byte} {s : State} {e : ErrCode} (h : datapathData u s = .error e) :
    Raisable s.cfg e := by
  rcases (datapathData_error_iff u s e).1 h with ⟨rfl, _⟩ | ⟨rfl, _⟩ | ⟨rfl, hop, hs, _⟩ | ⟨hop, _, ht⟩
  · exact raisable_allocationFailure _
  · exact raisable_allocationFailure _
  · exact ⟨nofun, nofun, fun _ => ⟨hop, hs⟩⟩
  · exact terminate_raisable hop ht

theorem datapathEnd_raisable {s : State} {e : ErrCode} (h : datapathEnd s = .error e) : Raisable s.cfg e := by
  rcases (datapathEnd_error_iff s e).1 h with ⟨rfl, _⟩ | ⟨hop, ht⟩
  · exact raisable_allocationFailure _
  · exact terminate_raisable hop ht

/-! ### The invariant, by where an operation stands -/

/-- A sound block in an operation that goes on. -/
theorem inv_of_run {s : State} (h : RegsSound s) (hp : s.phase = .run) (he : s.err = .none) : s.Inv := by
  refine (inv_iff s).2 ⟨h, ?_, ?_⟩ <;> simp [PhaseSound, ErrSound, hp, he]

/-- A sound block after an operation that went well. -/
theorem inv_of_done {s : State} (h : RegsSound s) (hp : s.phase = .done) (he : s.err = .none)
    (hempty : s.ec = 0 ∧ s.dk = 0) : s.Inv := by
  refine (inv_iff s).2 ⟨h, ?_, ?_⟩ <;> simp [PhaseSound, ErrSound, hp, he, hempty]

/-- A sound block after an error. -/
theorem inv_of_error {s : State} (h : RegsSound s) (hp : s.phase = .drain ∨ s.phase = .done)
    (he : Raisable s.cfg s.err) : s.Inv := by
  obtain ⟨hne, herr⟩ := he
  refine (inv_iff s).2 ⟨h, ?_, herr⟩
  rcases hp with hp | hp <;> simp [PhaseSound, hp, hne]

theorem raisable_of_inv {s : State} (h : s.Inv) (hne : s.err ≠ .none) : Raisable s.cfg s.err :=
  ⟨hne, ((inv_iff s).1 h).2.2⟩

/-- R37: the state after reset is sound with every capacity. -/
theorem inv_resetWith (cap : Capacity) : (State.resetWith cap).Inv := by
  refine (inv_iff _).2 ⟨⟨rfl, rfl, ?_, capFits_zero cap, ?_⟩, ?_, ?_⟩ <;>
    simp [State.resetWith, CfgClean, DatapathSound, PhaseSound, ErrSound]

theorem inv_startOperation (s : State) {c : Byte} (hc : c.extractLsb' 3 5 = 0#5) : (s.startOperation c).Inv := by
  refine inv_of_run ⟨rfl, rfl, hc, capFits_zero s.outCap, ?_⟩ rfl rfl
  simp [DatapathSound]

/-- R90, R91: the value a CMD latches has zeros in `CFG[7:3]`. -/
theorem cfgValue_reserved (op : Op) (a : Alphabet) (st : Bool) : (cfgValue op a st).extractLsb' 3 5 = 0#5 := by
  cases op <;> cases a <;> cases st <;> rfl

/-! ### Every transaction and every step keeps it -/

/-- R92: DATA in RUN. -/
theorem inv_data_run {s : State} (h : s.Inv) (hp : s.phase = .run) (u : Byte) :
    (settle .data s.countUnit (datapathData u s.countUnit)).Inv := by
  obtain ⟨hregs, ⟨_, hrun, _⟩, _⟩ := (inv_iff s).1 h
  have hregs : RegsSound s.countUnit := hregs
  cases hx : datapathData u s.countUnit with
  | ok t =>
    have hframe := datapathData_frame hx
    exact inv_of_run (datapathData_keeps_regsSound hregs hx) (hframe.phase.trans hp) (hframe.err.trans (hrun hp))
  | error e =>
    have he : Raisable s.countUnit.cfg e := datapathData_raisable hx
    exact inv_of_error (regsSound_raiseErr hregs .data e) (.inl rfl) he

/-- R93: END in RUN. -/
theorem inv_end_run {s : State} (h : s.Inv) (hp : s.phase = .run) :
    ((settle .endInput s (datapathEnd s)).setPhase .done).Inv := by
  obtain ⟨hregs, ⟨_, hrun, _⟩, _⟩ := (inv_iff s).1 h
  cases hx : datapathEnd s with
  | ok t =>
    have ht : RegsSound t := datapathEnd_keeps_regsSound hregs hx
    have hempty : t.ec = 0 ∧ t.dk = 0 := datapathEnd_ok_empty hregs hx
    exact inv_of_done (regsSound_setPhase ht .done) rfl ((datapathEnd_frame hx).err.trans (hrun hp)) hempty
  | error e =>
    have he : Raisable s.cfg e := datapathEnd_raisable hx
    exact inv_of_error (regsSound_setPhase (regsSound_raiseErr hregs .endInput e) .done) (.inr rfl) he

/-- R95: END in DRAIN. -/
theorem inv_end_drain {s : State} (h : s.Inv) (hp : s.phase = .drain) : (s.setPhase .done).Inv := by
  obtain ⟨hregs, ⟨_, _, hdrain, _⟩, _⟩ := (inv_iff s).1 h
  have he : Raisable s.cfg s.err := raisable_of_inv h (hdrain hp)
  exact inv_of_error (regsSound_setPhase hregs .done) (.inr rfl) he

theorem exec_keeps_inv {i : Instr} {s t : State} (h : s.Inv) (ht : exec i s = .next t) : t.Inv := by
  obtain ⟨a, st, _, _, rfl⟩ | ⟨a, st, _, _, rfl⟩ | ⟨u, _, _, rfl⟩ | ⟨u, _, hp, rfl⟩ | ⟨_, hp, rfl⟩ | ⟨_, hp, rfl⟩ :=
    exec_next ht
  · exact inv_startOperation s (cfgValue_reserved _ a st)
  · exact inv_startOperation s (cfgValue_reserved _ a st)
  · exact h
  · exact inv_data_run h hp u
  · exact inv_end_drain h hp
  · exact inv_end_run h hp

/-- Settles O47: `exec_keeps_inv` for a word; a reset answers the state after reset, and a read changes no register. -/
theorem invKeptByEveryStep : Obligations.InvKeptByEveryStep := by
  intro s t h ht
  obtain ⟨_, rfl⟩ | ⟨w, i, rest, _, _, he⟩ | ⟨rest, _, rfl⟩ | ⟨n, a, rest, _, _, rfl⟩ | ⟨i, a, rest, _, _, rfl⟩ :=
    step_next ht
  · exact h
  · exact exec_keeps_inv (s := s.consume) h he
  · exact inv_resetWith s.outCap
  · exact h
  · exact h

/-- Settles O48, by `inv_resetWith` for `Config.outCap` and for every other capacity. -/
theorem invHoldsAfterReset : Obligations.InvHoldsAfterReset :=
  ⟨inv_resetWith Config.outCap, inv_resetWith⟩

end Sys2Proof.Machine

/-! What PHASE, CFG and IN_CNT may do (10_state.md R20, R23, R25), the frame of DATA and END, and the views and tables
(R24, R30 to R35, R37, R39). -/

namespace Sys2Proof.Machine

/-! ### The frame of DATA and END -/

/-- What DATA and END never write: CFG, the capacity, the port, and the other datapath's registers. It names neither
PHASE nor IN_CNT, so `setPhase` and `countUnit` keep it by definition. -/
def InputFrame (s t : State) : Prop :=
  t.cfg = s.cfg ∧ t.outCap = s.outCap ∧ t.pending = s.pending ∧ t.answers = s.answers ∧
  (cfgOp s.cfg = .encode → t.dq = s.dq ∧ t.dk = s.dk) ∧
  (cfgOp s.cfg = .decode → t.eg = s.eg ∧ t.ec = s.ec)

theorem InputFrame.refl (s : State) : InputFrame s s :=
  ⟨rfl, rfl, rfl, rfl, fun _ => ⟨rfl, rfl⟩, fun _ => ⟨rfl, rfl⟩⟩

/-- R153: a rule's success keeps the frame, and error entry writes nothing in it. -/
theorem settle_inputFrame (r : Raiser) {s : State} {x : Except ErrCode State}
    (hx : ∀ t, x = .ok t → DatapathFrame s t) : InputFrame s (settle r s x) := by
  cases x with
  | ok t =>
    have hf := hx t rfl
    exact ⟨hf.cfg, hf.outCap, hf.pending, hf.answers, hf.encode, hf.decode⟩
  | error e => cases r <;> exact InputFrame.refl s

/-- R25: past the count of the unit itself nothing writes IN_CNT. -/
theorem settle_inCnt (r : Raiser) {s : State} {x : Except ErrCode State}
    (hx : ∀ t, x = .ok t → DatapathFrame s t) : (settle r s x).inCnt = s.inCnt := by
  cases x with
  | ok t => exact (hx t rfl).inCnt
  | error e => cases r <;> rfl

theorem exec_data_inputFrame {u : Byte} {s t : State} (h : exec (.data u) s = .next t) : InputFrame s t := by
  rcases phase_of_exec_next (.inl ⟨u, rfl⟩) h with hp | hp
  · cases (exec_data_run hp u).symm.trans h
    exact settle_inputFrame (s := s.countUnit) .data fun _ => datapathData_frame
  · cases (exec_data_drain hp u).symm.trans h
    exact InputFrame.refl s

theorem exec_end_inputFrame {s t : State} (h : exec .endInput s = .next t) : InputFrame s t := by
  rcases phase_of_exec_next (.inr rfl) h with hp | hp
  · cases (exec_end_run hp).symm.trans h
    exact settle_inputFrame .endInput fun _ => datapathEnd_frame
  · cases (exec_end_drain hp).symm.trans h
    exact InputFrame.refl s

/-- Settles O43: the frame of each of the two transactions. -/
theorem frameOfDataAndEnd : Obligations.FrameOfDataAndEnd := by
  rintro s t i (⟨u, rfl⟩ | rfl) h
  · exact exec_data_inputFrame h
  · exact exec_end_inputFrame h

/-! ### PHASE -/

/-- R92, R153: DATA in RUN stays there or enters DRAIN with an error. -/
theorem settle_data_phase (u : Byte) {s : State} (hp : s.phase = .run) :
    (settle .data s (datapathData u s)).phase = .run ∨
    ((settle .data s (datapathData u s)).phase = .drain ∧ (settle .data s (datapathData u s)).err ≠ .none) := by
  cases hx : datapathData u s with
  | ok t => exact .inl ((datapathData_frame hx).phase.trans hp)
  | error e => exact .inr ⟨rfl, (datapathData_raisable hx).1⟩

/-- R20, of one transaction. -/
theorem exec_phase_change {i : Instr} {s t : State} (h : exec i s = .next t) (hne : t.phase ≠ s.phase) :
    (((∃ a st, i = .cmdEncode a st) ∨ (∃ a st, i = .cmdDecode a st)) ∧
      (s.phase = .idle ∨ s.phase = .done) ∧ t.phase = .run) ∨
    (i = .endInput ∧ (s.phase = .run ∨ s.phase = .drain) ∧ t.phase = .done) ∨
    ((∃ u, i = .data u) ∧ s.phase = .run ∧ t.phase = .drain ∧ t.err ≠ .none) := by
  obtain ⟨a, st, hi, hp, rfl⟩ | ⟨a, st, hi, hp, rfl⟩ | ⟨u, _, _, rfl⟩ | ⟨u, hi, hp, rfl⟩ | ⟨hi, hp, rfl⟩ | ⟨hi, hp, rfl⟩ :=
    exec_next h
  · exact .inl ⟨.inl ⟨a, st, hi⟩, hp, rfl⟩
  · exact .inl ⟨.inr ⟨a, st, hi⟩, hp, rfl⟩
  · exact absurd rfl hne
  · rcases settle_data_phase u (s := s.countUnit) hp with hrun | ⟨hdrain, herr⟩
    · exact absurd (hrun.trans hp.symm) hne
    · exact .inr (.inr ⟨⟨u, hi⟩, hp, hdrain, herr⟩)
  · exact .inr (.inl ⟨hi, .inr hp, rfl⟩)
  · exact .inr (.inl ⟨hi, .inl hp, rfl⟩)

/-- Settles O41: `exec_phase_change` for a word; a read keeps PHASE. -/
theorem phaseMovesOnlyAsListed : Obligations.PhaseMovesOnlyAsListed := by
  intro s t h hne
  obtain ⟨_, rfl⟩ | ⟨w, i, rest, hw, hd, he⟩ | ⟨rest, hr, rfl⟩ | ⟨n, a, rest, _, _, rfl⟩ | ⟨i, a, rest, _, _, rfl⟩ :=
    step_next h
  · exact absurd rfl hne
  · exact .inr ⟨w, i, by rw [hw, List.head?_cons], hd, exec_phase_change (s := s.consume) he hne⟩
  · exact .inl ⟨by rw [hr, List.head?_cons], rfl⟩
  · exact absurd rfl hne
  · exact absurd rfl hne

/-! ### CFG -/

@[simp] theorem bit_alphabetOfBit (b : Bool) : (alphabetOfBit b).bit = b := by
  cases b <;> rfl

/-- R70: a word is its KIND and its payload. -/
theorem wordKind_append_wordPayload (w : TWord) : wordKind w ++ wordPayload w = w := by
  apply BitVec.eq_of_getLsbD_eq
  intro i hi
  rw [BitVec.getLsbD_append, wordKind, wordPayload, BitVec.getLsbD_extractLsb', BitVec.getLsbD_extractLsb']
  by_cases h : i < 8
  · simp [h]
  · simp [h, show i - 8 < 2 by omega, show 8 + (i - 8) = i by omega]

/-- R72: the payload of a CMD is its reserved bits, STRICT, ALPH and OP. -/
theorem wordPayload_eq_fields (w : TWord) :
    w.extractLsb' 3 5 ++ BitVec.ofBool (w.getLsbD 2) ++ BitVec.ofBool (w.getLsbD 1) ++ BitVec.ofBool (w.getLsbD 0) =
      wordPayload w := by
  apply BitVec.eq_of_getLsbD_eq
  intro i hi
  simp only [wordPayload, BitVec.getLsbD_append, BitVec.getLsbD_extractLsb', BitVec.getLsbD_ofBool]
  interval_cases i <;> simp

/-- R76, R78: a word that decodes is the word of its transaction. -/
theorem encode_of_decode {w : TWord} {i : Instr} (h : decode w = .ok i) : encode i = w := by
  have hw := wordKind_append_wordPayload w
  have hf := wordPayload_eq_fields w
  unfold decode at h
  split_ifs at h with hk hr h0 hk1 hk2 hp
  · cases h
    rw [← hw, ← hf, hk, hr, h0]
    cases hs : w.getLsbD 2 <;> cases ha : w.getLsbD 1 <;> rfl
  · cases h
    rw [← hw, ← hf, hk, hr, Bool.eq_false_of_not_eq_true h0]
    cases hs : w.getLsbD 2 <;> cases ha : w.getLsbD 1 <;> rfl
  · cases h
    rw [encode, ← hk1, hw]
  · cases h
    rw [encode, ← hk2, ← hp, hw]

/-- R72, R90, R91: the payload of a CMD's word is the value the CMD latches. -/
theorem setWidth_encode_cmdEncode (a : Alphabet) (st : Bool) :
    (encode (.cmdEncode a st)).setWidth 8 = cfgValue .encode a st := by
  cases a <;> cases st <;> rfl

theorem setWidth_encode_cmdDecode (a : Alphabet) (st : Bool) :
    (encode (.cmdDecode a st)).setWidth 8 = cfgValue .decode a st := by
  cases a <;> cases st <;> rfl

/-- R23, R99, of one transaction: only a CMD changes CFG, to the low 8 bits of its word. -/
theorem exec_cfg_change {i : Instr} {s t : State} (h : exec i s = .next t) (hne : t.cfg ≠ s.cfg) :
    t.cfg = (encode i).setWidth 8 ∧ t.cfg.extractLsb' 3 5 = 0#5 ∧
      ((∃ a st, i = .cmdEncode a st) ∨ (∃ a st, i = .cmdDecode a st)) := by
  obtain ⟨a, st, rfl, _, rfl⟩ | ⟨a, st, rfl, _, rfl⟩ | ⟨u, rfl, _⟩ | ⟨u, rfl, _⟩ | ⟨rfl, _⟩ | ⟨rfl, _⟩ := exec_next h
  · exact ⟨(setWidth_encode_cmdEncode a st).symm, cfgValue_reserved _ a st, .inl ⟨a, st, rfl⟩⟩
  · exact ⟨(setWidth_encode_cmdDecode a st).symm, cfgValue_reserved _ a st, .inr ⟨a, st, rfl⟩⟩
  · exact absurd (exec_data_inputFrame h).1 hne
  · exact absurd (exec_data_inputFrame h).1 hne
  · exact absurd (exec_end_inputFrame h).1 hne
  · exact absurd (exec_end_inputFrame h).1 hne

/-- Settles O42: `exec_cfg_change` for a word, and the word is the one its transaction encodes to. -/
theorem onlyCmdChangesCfg : Obligations.OnlyCmdChangesCfg := by
  intro s t h hne
  obtain ⟨_, rfl⟩ | ⟨w, i, rest, hw, hd, he⟩ | ⟨rest, hr, rfl⟩ | ⟨n, a, rest, _, _, rfl⟩ | ⟨i, a, rest, _, _, rfl⟩ :=
    step_next h
  · exact absurd rfl hne
  · obtain ⟨hcfg, hres, hcmd⟩ := exec_cfg_change (s := s.consume) he hne
    refine .inr ⟨w, by rw [hw, List.head?_cons], encode_of_decode hd ▸ hcfg, hres, ?_⟩
    rcases hcmd with ⟨a, st, rfl⟩ | ⟨a, st, rfl⟩
    · exact .inl ⟨a, st, hd⟩
    · exact .inr ⟨a, st, hd⟩
  · exact .inl ⟨by rw [hr, List.head?_cons], rfl⟩
  · exact absurd rfl hne
  · exact absurd rfl hne

/-! ### IN_CNT -/

/-- `IN_CNT <- c`, to say that nothing reads it. -/
def State.setInCnt (s : State) (c : Count) : State := { s with inCnt := c }

/-- R90: exactly when CMD.ENCODE is accepted, and what it does. -/
theorem exec_cmdEncode_next_iff (a : Alphabet) (st : Bool) {s t : State} :
    exec (.cmdEncode a st) s = .next t ↔
      (s.phase = .idle ∨ s.phase = .done) ∧ t = s.startOperation (cfgValue .encode a st) := by
  cases hp : s.phase <;> simp [exec, execCmdEncode, hp, eq_comm]

/-- R91: exactly when CMD.DECODE is accepted, and what it does. -/
theorem exec_cmdDecode_next_iff (a : Alphabet) (st : Bool) {s t : State} :
    exec (.cmdDecode a st) s = .next t ↔
      (s.phase = .idle ∨ s.phase = .done) ∧ t = s.startOperation (cfgValue .decode a st) := by
  cases hp : s.phase <;> simp [exec, execCmdDecode, hp, eq_comm]

theorem exec_cmd_inCnt {i : Instr} {s t : State} (hi : (∃ a st, i = .cmdEncode a st) ∨ (∃ a st, i = .cmdDecode a st))
    (h : exec i s = .next t) : t.inCnt = 0#32 := by
  rcases hi with ⟨a, st, rfl⟩ | ⟨a, st, rfl⟩
  · obtain ⟨_, rfl⟩ := (exec_cmdEncode_next_iff a st).1 h
    rfl
  · obtain ⟨_, rfl⟩ := (exec_cmdDecode_next_iff a st).1 h
    rfl

theorem exec_data_run_inCnt {u : Byte} {s t : State} (hp : s.phase = .run) (h : exec (.data u) s = .next t) :
    t.inCnt = s.inCnt + 1#32 := by
  cases (exec_data_run hp u).symm.trans h
  exact settle_inCnt (s := s.countUnit) .data fun _ => datapathData_frame

theorem exec_data_drain_inCnt {u : Byte} {s t : State} (hp : s.phase = .drain) (h : exec (.data u) s = .next t) :
    t.inCnt = s.inCnt := by
  cases (exec_data_drain hp u).symm.trans h
  rfl

theorem exec_end_inCnt {s t : State} (h : exec .endInput s = .next t) : t.inCnt = s.inCnt := by
  rcases phase_of_exec_next (.inr rfl) h with hp | hp
  · cases (exec_end_run hp).symm.trans h
    exact settle_inCnt .endInput fun _ => datapathEnd_frame
  · cases (exec_end_drain hp).symm.trans h
    rfl

section InCntIsNotRead

variable (s : State) (c : Count)

/-- An emission, and an update that does not read IN_CNT after it. -/
theorem emit_map_setInCnt (us : List Byte) {f : State → State} (hf : ∀ t, f (t.setInCnt c) = (f t).setInCnt c) :
    (emit us (s.setInCnt c)).map f = ((emit us s).map f).map (·.setInCnt c) := by
  by_cases hroom : s.room us.length
  · rw [emit_of_room hroom, emit_of_room (s := s.setInCnt c) hroom]
    exact congrArg Except.ok (hf (s.appendOut us))
  · rw [emit_of_not_room hroom, emit_of_not_room (s := s.setInCnt c) hroom]
    rfl

theorem encData_setInCnt (u : Byte) : encData u (s.setInCnt c) = (encData u s).map (·.setInCnt c) := by
  have hec : (s.setInCnt c).ec = s.ec := rfl
  unfold encData
  rw [hec]
  split
  · rfl
  · rfl
  · exact emit_map_setInCnt s c _ fun _ => rfl

theorem encEnd_setInCnt : encEnd (s.setInCnt c) = (encEnd s).map (·.setInCnt c) := by
  have hec : (s.setInCnt c).ec = s.ec := rfl
  unfold encEnd
  rw [hec]
  split
  · rfl
  · exact emit_map_setInCnt s c _ fun _ => rfl
  · exact emit_map_setInCnt s c _ fun _ => rfl

theorem terminate_setInCnt : terminate (s.setInCnt c) = (terminate s).map (·.setInCnt c) := by
  have hdk : (s.setInCnt c).dk = s.dk := rfl
  unfold terminate
  rw [hdk]
  split
  · rfl
  · rfl
  · exact emit_map_setInCnt s c _ fun _ => rfl
  · exact emit_map_setInCnt s c _ fun _ => rfl

theorem acceptSextet_setInCnt (v : Sextet) : acceptSextet v (s.setInCnt c) = (acceptSextet v s).map (·.setInCnt c) := by
  have hdk : (s.setInCnt c).dk = s.dk := rfl
  unfold acceptSextet
  rw [hdk]
  split
  · exact emit_map_setInCnt s c _ fun _ => rfl
  · rfl

theorem decData_setInCnt (u : Byte) : decData u (s.setInCnt c) = (decData u s).map (·.setInCnt c) := by
  have hcfg : (s.setInCnt c).cfg = s.cfg := rfl
  unfold decData
  rw [hcfg]
  split
  · exact acceptSextet_setInCnt s c _
  · exact terminate_setInCnt s c
  · split
    · rfl
    · exact terminate_setInCnt s c

theorem datapathData_setInCnt (u : Byte) :
    datapathData u (s.setInCnt c) = (datapathData u s).map (·.setInCnt c) := by
  have hcfg : (s.setInCnt c).cfg = s.cfg := rfl
  unfold datapathData
  rw [hcfg]
  split
  · exact encData_setInCnt s c u
  · exact decData_setInCnt s c u

theorem datapathEnd_setInCnt : datapathEnd (s.setInCnt c) = (datapathEnd s).map (·.setInCnt c) := by
  have hcfg : (s.setInCnt c).cfg = s.cfg := rfl
  unfold datapathEnd
  rw [hcfg]
  split
  · exact encEnd_setInCnt s c
  · exact terminate_setInCnt s c

theorem settle_setInCnt (r : Raiser) (x : Except ErrCode State) :
    settle r (s.setInCnt c) (x.map (·.setInCnt c)) = (settle r s x).setInCnt c := by
  cases x with
  | ok t => rfl
  | error e => cases r <;> rfl

end InCntIsNotRead

/-- R25, of one transaction: another value of IN_CNT changes nothing but IN_CNT. -/
theorem exec_setInCnt {i : Instr} {s t : State} (h : exec i s = .next t) (c : Count) :
    ∃ c', exec i (s.setInCnt c) = .next (t.setInCnt c') := by
  obtain ⟨a, st, rfl, hp, rfl⟩ | ⟨a, st, rfl, hp, rfl⟩ | ⟨u, rfl, hp, rfl⟩ | ⟨u, rfl, hp, rfl⟩ | ⟨rfl, hp, rfl⟩ |
    ⟨rfl, hp, rfl⟩ := exec_next h
  · exact ⟨0#32, (exec_cmdEncode_next_iff a st).2 ⟨hp, rfl⟩⟩
  · exact ⟨0#32, (exec_cmdDecode_next_iff a st).2 ⟨hp, rfl⟩⟩
  · exact ⟨c, exec_data_drain (s := t.setInCnt c) hp u⟩
  · refine ⟨c + 1#32, (exec_data_run (s := s.setInCnt c) hp u).trans ?_⟩
    rw [show (s.setInCnt c).countUnit = s.countUnit.setInCnt (c + 1#32) from rfl, datapathData_setInCnt,
      settle_setInCnt]
  · exact ⟨c, exec_end_drain (s := s.setInCnt c) hp⟩
  · refine ⟨c, (exec_end_run (s := s.setInCnt c) hp).trans ?_⟩
    rw [datapathEnd_setInCnt, settle_setInCnt]
    rfl

/-- Settles O39: the count of each transaction, and `exec_setInCnt` for what reads it. -/
theorem inCntCountsTheUnitsOfTheOperation : Obligations.InCntCountsTheUnitsOfTheOperation := by
  refine ⟨fun s t i h => ⟨fun hi => exec_cmd_inCnt hi h, ?_, ?_, ?_⟩, fun _ => rfl, fun s t i c h => exec_setInCnt h c⟩
  · rintro ⟨u, rfl⟩ hp
    exact exec_data_run_inCnt hp h
  · rintro ⟨u, rfl⟩ hp
    exact exec_data_drain_inCnt hp h
  · rintro rfl
    exact exec_end_inCnt h

/-! ### Reads of registers and of OUT -/

/-- R39: a step on a register read. -/
theorem step_readReg {s : State} {n : Nat} {rest : List PortEvent} (hp : s.pending = .readReg n :: rest) :
    step s = hostReadReg n s.consume := by
  simp [step, hp, stepEvent]

/-- R39: a step on an output read. -/
theorem step_readOut {s : State} {i : Nat} {rest : List PortEvent} (hp : s.pending = .readOut i :: rest) :
    step s = hostReadOut i s.consume := by
  simp [step, hp, stepEvent]

theorem consume_eq {s : State} {e : PortEvent} {rest : List PortEvent} (hp : s.pending = e :: rest) :
    s.consume = { s with pending := rest } := by
  rw [State.consume, hp, List.tail_cons]

/-- R39, R97: a read that returns `a` adds it to the record and changes nothing else. -/
theorem step_readReg_next {s : State} {n : Nat} {a : Answer} {rest : List PortEvent}
    (hp : s.pending = .readReg n :: rest) (ha : regRead n s.consume = some a) :
    step s = .next { s with pending := rest, answers := s.answers ++ [a] } := by
  rw [step_readReg hp, hostReadReg, ha, consume_eq hp]
  rfl

theorem step_readOut_next {s : State} {i : Nat} {a : Answer} {rest : List PortEvent}
    (hp : s.pending = .readOut i :: rest) (ha : outRead i s.consume = some a) :
    step s = .next { s with pending := rest, answers := s.answers ++ [a] } := by
  rw [step_readOut hp, hostReadOut, ha, consume_eq hp]
  rfl

theorem regRead_eq_none {n : Nat} (hn : 4 ≤ n) (s : State) : regRead n s = none := by
  match n, hn with
  | n + 4, _ => rfl

/-- R23: the mask of register 1 keeps `CFG[2:0]`. -/
theorem cfg_and_seven (c : Byte) : c &&& 0x07#8 = 0#5 ++ c.extractLsb' 0 3 := by
  apply BitVec.eq_of_getLsbD_eq
  intro i hi
  rw [BitVec.getLsbD_and, BitVec.getLsbD_append, BitVec.getLsbD_extractLsb']
  interval_cases i <;> simp

/-- Settles O10: `regRead` and `outRead` clause by clause, each on the state without the read. -/
theorem hostReadsChangeNothing : Obligations.HostReadsChangeNothing := by
  intro s rest
  refine ⟨fun hp => step_readReg_next hp rfl, fun hp => step_readReg_next hp ?_, fun hp => step_readReg_next hp rfl,
    fun hp => step_readReg_next hp rfl, fun n hn hp => ?_, fun i u hu hp => step_readOut_next hp ?_, fun i hi hp => ?_⟩
  · rw [← cfg_and_seven]
    rfl
  · rw [step_readReg hp, hostReadReg, regRead_eq_none hn]
  · rw [outRead, State.consume_out, hu, Option.map_some]
  · rw [step_readOut hp, hostReadOut, outRead, State.consume_out, List.getElem?_eq_none hi, Option.map_none]

/-! ### STATUS -/

/-- R24: STATUS as a function of PHASE and ERR. -/
def statusByte (p : Phase) (e : ErrCode) : Byte := { State.resetWith none with phase := p, err := e }.status

theorem status_eq_statusByte (s : State) : s.status = statusByte s.phase s.err := rfl

/-- R24: the fields of STATUS. -/
theorem statusByte_fields (p : Phase) (e : ErrCode) :
    (statusByte p e).getLsbD 0 = (p == .run || p == .drain) ∧
    (statusByte p e).getLsbD 1 = (p == .done) ∧
    (statusByte p e).getLsbD 2 = (p == .done && e == .none) ∧
    (statusByte p e).extractLsb' 3 2 = e.code ∧
    (statusByte p e).extractLsb' 5 3 = 0#3 := by
  cases p <;> cases e <;> decide

theorem statusByte_idle : statusByte .idle .none = 0x00#8 := rfl

theorem statusByte_run : statusByte .run .none = 0x01#8 := rfl

/-- R24: STATUS after an error, in DRAIN. -/
theorem statusByte_drain {e : ErrCode} (he : e ≠ .none) :
    statusByte .drain e = 0x09#8 ∨ statusByte .drain e = 0x11#8 ∨ statusByte .drain e = 0x19#8 := by
  cases e with
  | none => exact absurd rfl he
  | invalidCharacter => exact .inl rfl
  | truncatedInput => exact .inr (.inl rfl)
  | allocationFailure => exact .inr (.inr rfl)

/-- R24: STATUS in DONE. -/
theorem statusByte_done (e : ErrCode) :
    statusByte .done e = 0x06#8 ∨ statusByte .done e = 0x0A#8 ∨ statusByte .done e = 0x12#8 ∨
      statusByte .done e = 0x1A#8 := by
  cases e with
  | none => exact .inl rfl
  | invalidCharacter => exact .inr (.inl rfl)
  | truncatedInput => exact .inr (.inr (.inl rfl))
  | allocationFailure => exact .inr (.inr (.inr rfl))

/-- Settles O11: STATUS is `statusByte` of PHASE and ERR, and the invariant says which ERR each PHASE has. -/
theorem statusIsTheViewOfPhaseAndErr : Obligations.StatusIsTheViewOfPhaseAndErr := by
  constructor
  · intro s
    obtain ⟨hbusy, hdone, hvalid, herr, hzero⟩ := statusByte_fields s.phase s.err
    exact ⟨hbusy, hdone, hvalid, herr, hzero, rfl⟩
  · intro s h
    obtain ⟨_, ⟨hidle, hrun, hdrain, _⟩, _⟩ := (inv_iff s).1 h
    rw [status_eq_statusByte]
    refine ⟨fun hp => ?_, fun hp => ?_, fun hp => ?_, fun hp => ?_⟩
    · obtain ⟨_, he, _⟩ := hidle hp
      rw [hp, he, statusByte_idle]
    · rw [hp, hrun hp, statusByte_run]
    · rw [hp]
      exact statusByte_drain (hdrain hp)
    · rw [hp]
      exact statusByte_done s.err

/-- Settles O12: `State.resetWith` gives every register, and STATUS is `statusByte` of IDLE and NONE. -/
theorem stateAfterReset : Obligations.StateAfterReset :=
  ⟨rfl, fun _ => ⟨rfl, statusByte_idle, rfl, rfl, rfl, rfl, rfl, rfl, rfl, rfl, rfl⟩⟩

/-! ### The look-up tables -/

/-- R35: the reverse look-up undoes `fwdLUT a`, so no two values share a symbol. -/
theorem fwdLUT_injective (a : Alphabet) : Function.Injective (fwdLUT a) :=
  fun v w h => Option.some.inj (by rw [← revLUT_fwdLUT a v, h, revLUT_fwdLUT])

/-- R33: the two look-ups are inverse to each other. -/
theorem revLUT_eq_some_iff (a : Alphabet) (c : Byte) (v : Sextet) : revLUT a c = some v ↔ fwdLUT a v = c := by
  constructor
  · exact fwdLUT_of_revLUT a c v
  · rintro rfl
    exact revLUT_fwdLUT a v

/-- R32: below 62 the look-up does not read the alphabet. -/
theorem fwdLUT_of_lt (a b : Alphabet) {v : Sextet} (hv : v < 62#6) : fwdLUT a v = fwdLUT b v := by
  unfold fwdLUT
  simp only [if_pos hv]

/-- R33: how many codes the reverse look-up knows. -/
theorem revLUT_count (a : Alphabet) :
    ((List.range 256).filter fun n => (revLUT a (BitVec.ofNat 8 n)).isSome).length = 64 ∧
    ((List.range 256).filter fun n => (revLUT a (BitVec.ofNat 8 n)).isNone).length = 192 := by
  cases a <;> exact ⟨rfl, rfl⟩

/-- Settles O32: both columns of the table, evaluated. -/
theorem alphabetTable : Obligations.AlphabetTable :=
  ⟨by decide, by decide⟩

/-- Settles O33: the two look-ups are inverse, and the counts of both alphabets are evaluated. -/
theorem revLUTInvertsFwdLUT : Obligations.RevLUTInvertsFwdLUT :=
  ⟨revLUT_eq_some_iff, revLUT_count⟩

/-- Settles O34: distinct symbols by `fwdLUT_injective`, the padding symbol and the inverse by the laws of the tables. -/
theorem tableInvariants : Obligations.TableInvariants := by
  refine ⟨fun a _ _ h => fwdLUT_injective a h, fwdLUT_ne_padCode, revLUT_fwdLUT, revLUT_padCode, fun v hv => ?_⟩
  exact fwdLUT_of_lt _ _ (by bv_omega)

end Sys2Proof.Machine

/-! What OUT may do (20_memory.md R50, R51, R55, R56), how a step takes up a word (R59), and what an accepted CMD keeps of
the operation before it. -/

namespace Sys2Proof.Machine

/-! ### Emission -/

/-- R55, R56: from `s` to `t` the one emission `us` was appended to OUT, whole and fitting, with no error. It names neither
PHASE nor IN_CNT, so `setPhase` and `countUnit` keep it by definition. -/
def WholeEmission (s t : State) (us : List Byte) : Prop :=
  t.out = s.out ++ us ∧ s.room us.length ∧ t.err = s.err ∧
  (cfgOp s.cfg = .encode → us.length = 4) ∧
  (cfgOp s.cfg = .decode → us.length = 1 ∨ us.length = 2 ∨ us.length = 3)

theorem WholeEmission.length_le_four {s t : State} {us : List Byte} (h : WholeEmission s t us) : us.length ≤ 4 := by
  obtain ⟨_, _, _, henc, hdec⟩ := h
  cases hop : cfgOp s.cfg with
  | encode => exact (henc hop).le
  | decode =>
    have := hdec hop
    omega

theorem DatapathFrame.out_or_wholeEmission {s t : State} (h : DatapathFrame s t) :
    t.out = s.out ∨ ∃ us, WholeEmission s t us := by
  obtain ⟨us, hout, hroom, henc, hdec⟩ := h.out
  by_cases hne : us = []
  · exact .inl (by rw [hout, hne, List.append_nil])
  · refine .inr ⟨us, hout, hroom.resolve_left hne, h.err, fun hop => (henc hop).resolve_left hne, fun hop => ?_⟩
    have hlt := hdec hop
    have hpos := List.length_pos_iff.2 hne
    omega

/-- R153: error entry leaves OUT alone, so the rule's own frame decides. -/
theorem settle_out_or_wholeEmission (r : Raiser) {s : State} {x : Except ErrCode State}
    (hx : ∀ t, x = .ok t → DatapathFrame s t) :
    (settle r s x).out = s.out ∨ ∃ us, WholeEmission s (settle r s x) us := by
  cases x with
  | ok t => exact (hx t rfl).out_or_wholeEmission
  | error e => cases r <;> exact .inl rfl

theorem exec_data_out {u : Byte} {s t : State} (h : exec (.data u) s = .next t) :
    t.out = s.out ∨ (s.phase = .run ∧ ∃ us, WholeEmission s t us) := by
  rcases phase_of_exec_next (.inl ⟨u, rfl⟩) h with hp | hp
  · cases (exec_data_run hp u).symm.trans h
    exact (settle_out_or_wholeEmission (s := s.countUnit) .data fun _ => datapathData_frame).imp_right (.intro hp)
  · cases (exec_data_drain hp u).symm.trans h
    exact .inl rfl

theorem exec_end_out {s t : State} (h : exec .endInput s = .next t) :
    t.out = s.out ∨ (s.phase = .run ∧ ∃ us, WholeEmission s t us) := by
  rcases phase_of_exec_next (.inr rfl) h with hp | hp
  · cases (exec_end_run hp).symm.trans h
    exact (settle_out_or_wholeEmission .endInput fun _ => datapathEnd_frame).imp_right (.intro hp)
  · cases (exec_end_drain hp).symm.trans h
    exact .inl rfl

theorem exec_input_out {i : Instr} {s t : State} (hi : (∃ u, i = .data u) ∨ i = .endInput) (h : exec i s = .next t) :
    t.out = s.out ∨ (s.phase = .run ∧ ∃ us, WholeEmission s t us) := by
  rcases hi with ⟨u, rfl⟩ | rfl
  · exact exec_data_out h
  · exact exec_end_out h

/-- Settles O35: `exec_input_out`, the emission taken apart. -/
theorem emissionIsAllOrNothing : Obligations.EmissionIsAllOrNothing := by
  intro s t i hi h
  obtain hsame | ⟨hp, us, hout, hroom, herr, henc, hdec⟩ := exec_input_out hi h
  · exact .inl hsame
  · exact .inr ⟨us, hout, hroom, herr, hp, henc, hdec⟩

/-! ### What a step does to OUT -/

/-- OUT grows by at most one emission. -/
def OutGrows (s t : State) : Prop :=
  ∃ us : List Byte, t.out = s.out ++ us ∧ us.length ≤ 4

theorem outGrows_of_eq {s t : State} (h : t.out = s.out) : OutGrows s t :=
  ⟨[], by rw [h, List.append_nil], Nat.zero_le 4⟩

theorem exec_input_outGrows {i : Instr} {s t : State} (hi : (∃ u, i = .data u) ∨ i = .endInput)
    (h : exec i s = .next t) : OutGrows s t := by
  obtain hsame | ⟨_, us, hus⟩ := exec_input_out hi h
  · exact outGrows_of_eq hsame
  · exact ⟨us, hus.1, hus.length_le_four⟩

/-- R50, R51, of one transaction. -/
theorem exec_outGrows_or_cmd {i : Instr} {s t : State} (h : exec i s = .next t) :
    OutGrows s t ∨ (t.out = [] ∧ ((∃ a st, i = .cmdEncode a st) ∨ (∃ a st, i = .cmdDecode a st))) := by
  cases i with
  | cmdEncode a st =>
    obtain ⟨_, rfl⟩ := (exec_cmdEncode_next_iff a st).1 h
    exact .inr ⟨rfl, .inl ⟨a, st, rfl⟩⟩
  | cmdDecode a st =>
    obtain ⟨_, rfl⟩ := (exec_cmdDecode_next_iff a st).1 h
    exact .inr ⟨rfl, .inr ⟨a, st, rfl⟩⟩
  | data u => exact .inl (exec_input_outGrows (.inl ⟨u, rfl⟩) h)
  | endInput => exact .inl (exec_input_outGrows (.inr rfl) h)

/-- Settles O40: `exec_outGrows_or_cmd` for a word; RESET empties OUT and a read keeps it. -/
theorem outOnlyGrowsWithinAnOperation : Obligations.OutOnlyGrowsWithinAnOperation := by
  intro s t h
  obtain ⟨_, rfl⟩ | ⟨w, i, rest, hw, hd, he⟩ | ⟨rest, hr, rfl⟩ | ⟨n, a, rest, _, _, rfl⟩ | ⟨i, a, rest, _, _, rfl⟩ :=
    step_next h
  · exact .inl (outGrows_of_eq rfl)
  · refine (exec_outGrows_or_cmd (s := s.consume) he).imp_right fun ⟨hout, hcmd⟩ =>
      ⟨hout, .inr ⟨w, by rw [hw, List.head?_cons], ?_⟩⟩
    rcases hcmd with ⟨a, st, rfl⟩ | ⟨a, st, rfl⟩
    · exact .inl ⟨a, st, hd⟩
    · exact .inr ⟨a, st, hd⟩
  · exact .inr ⟨rfl, .inl (by rw [hr, List.head?_cons])⟩
  · exact .inl (outGrows_of_eq rfl)
  · exact .inl (outGrows_of_eq rfl)

/-! ### Issue order and the start of an operation -/

/-- Settles O8: `step_word`, with the state that has taken the word up written out. -/
theorem stepRunsTheDecodedTransaction : Obligations.StepRunsTheDecodedTransaction := by
  intro s w i rest hp hd
  rw [step_word hp hd, consume_eq hp]

/-- R90, R91: the start of an operation reads only the capacity and the two ends of the port. -/
theorem startOperation_congr {s s' : State} (hcap : s.outCap = s'.outCap) (hpend : s.pending = s'.pending)
    (hans : s.answers = s'.answers) (c : Byte) : s.startOperation c = s'.startOperation c := by
  simp only [State.startOperation, hcap, hpend, hans]

/-- Settles O18: both states start the same operation, by `startOperation_congr`. -/
theorem cmdForgetsTheLastOperation : Obligations.CmdForgetsTheLastOperation := by
  rintro s s' t t' i (⟨a, st, rfl⟩ | ⟨a, st, rfl⟩) hcap hpend hans h h'
  · obtain ⟨_, rfl⟩ := (exec_cmdEncode_next_iff a st).1 h
    obtain ⟨_, rfl⟩ := (exec_cmdEncode_next_iff a st).1 h'
    exact startOperation_congr hcap hpend hans _
  · obtain ⟨_, rfl⟩ := (exec_cmdDecode_next_iff a st).1 h
    obtain ⟨_, rfl⟩ := (exec_cmdDecode_next_iff a st).1 h'
    exact startOperation_congr hcap hpend hans _

end Sys2Proof.Machine

/-! The encoding (30_encoding.md R70 to R80): the decoder case by case and its inverse, the ranges of the legal and the
reserved words, the rows of the opcode map, and the assembler's text. -/

namespace Sys2Proof.Machine

/-! ### The decoder, case by case -/

section DecodeCases

variable {t : TWord}

theorem decode_cmdEncode (hk : wordKind t = 0#2) (hr : t.extractLsb' 3 5 = 0#5) (h0 : t.getLsbD 0 = false) :
    decode t = .ok (.cmdEncode (alphabetOfBit (t.getLsbD 1)) (t.getLsbD 2)) := by
  rw [decode, if_pos hk, if_pos hr, if_neg (ne_true_of_eq_false h0)]

theorem decode_cmdDecode (hk : wordKind t = 0#2) (hr : t.extractLsb' 3 5 = 0#5) (h0 : t.getLsbD 0 = true) :
    decode t = .ok (.cmdDecode (alphabetOfBit (t.getLsbD 1)) (t.getLsbD 2)) := by
  rw [decode, if_pos hk, if_pos hr, if_pos h0]

theorem decode_reservedCmdBits (hk : wordKind t = 0#2) (hr : t.extractLsb' 3 5 ≠ 0#5) :
    decode t = .error .reservedCmdBits := by
  rw [decode, if_pos hk, if_neg hr]

theorem decode_data (hk : wordKind t = 1#2) : decode t = .ok (.data (wordPayload t)) := by
  rw [decode, hk]
  rfl

theorem decode_endInput (hk : wordKind t = 2#2) (hp : wordPayload t = 0#8) : decode t = .ok .endInput := by
  rw [decode, hk, hp]
  rfl

theorem decode_endPayload (hk : wordKind t = 2#2) (hp : wordPayload t ≠ 0#8) : decode t = .error .endPayload := by
  rw [decode, hk, if_neg hp]
  rfl

theorem decode_reservedKind (hk : wordKind t = 3#2) : decode t = .error .reservedKind := by
  rw [decode, hk]
  rfl

/-- R75, R76: a CMD word without reserved bits decodes, whatever its fields say. -/
theorem decode_cmd (hk : wordKind t = 0#2) (hr : t.extractLsb' 3 5 = 0#5) : ∃ i, decode t = .ok i := by
  cases h0 : t.getLsbD 0 with
  | false => exact ⟨_, decode_cmdEncode hk hr h0⟩
  | true => exact ⟨_, decode_cmdDecode hk hr h0⟩

end DecodeCases

/-- Settles O2: one lemma for each case of R76. -/
theorem decodeFollowsTheCases : Obligations.DecodeFollowsTheCases := fun _ =>
  ⟨decode_reservedCmdBits, decode_cmdEncode, decode_cmdDecode, decode_data, decode_endPayload, decode_endInput,
    decode_reservedKind⟩

/-! ### The encoder and the decoder -/

/-- R70: KIND and the payload of a word put together from both. -/
theorem wordKind_append (k : BitVec 2) (p : Byte) : wordKind (k ++ p) = k :=
  BitVec.extractLsb'_append_eq_left

theorem wordPayload_append (k : BitVec 2) (p : Byte) : wordPayload (k ++ p) = p :=
  BitVec.extractLsb'_append_eq_right

/-- R76, R78: the decoder reads each transaction back from its word. -/
theorem decode_encode (i : Instr) : decode (encode i) = .ok i := by
  cases i with
  | cmdEncode a st => cases a <;> cases st <;> rfl
  | cmdDecode a st => cases a <;> cases st <;> rfl
  | data u =>
    have h : decode (encode (.data u)) = _ := decode_data (wordKind_append 1#2 u)
    rw [h, encode, wordPayload_append]
  | endInput => rfl

theorem decode_eq_ok_iff (i : Instr) (t : TWord) : decode t = .ok i ↔ encode i = t :=
  ⟨encode_of_decode, fun h => h ▸ decode_encode i⟩

/-- Settles O1: `encode_of_decode` one way, `decode_encode` the other. -/
theorem decodeAndEncodeAgree : Obligations.DecodeAndEncodeAgree := decode_eq_ok_iff

/-- Settles O3: by `decode_eq_ok_iff` each word is compared with the word its transaction encodes to. -/
theorem writtenOutWordsDecode : Obligations.WrittenOutWordsDecode := by
  simp only [Obligations.WrittenOutWordsDecode, decode_eq_ok_iff]
  decide

/-! ### The opcode map -/

/-- R78: a word that fits a row has the row's bits in every field that the row's mask covers. -/
theorem extractLsb'_of_fits {r : OpRow} {t : TWord} (h : r.fits t = true) {start len : Nat}
    (hmask : r.mask.extractLsb' start len = BitVec.allOnes len) :
    t.extractLsb' start len = r.pattern.extractLsb' start len := by
  rw [← beq_iff_eq.1 h, BitVec.extractLsb'_and, hmask, BitVec.and_allOnes]

/-- R78: every row's mask covers KIND. -/
theorem wordKind_of_fits {r : OpRow} (hr : r ∈ opcodeMap) {t : TWord} (h : r.fits t = true) :
    wordKind t = wordKind r.pattern := by
  have hmask : ∀ r ∈ opcodeMap, r.mask.extractLsb' 8 2 = BitVec.allOnes 2 := by decide
  exact extractLsb'_of_fits h (hmask r hr)

/-- R76, R78: a word that fits a row decodes. -/
theorem exists_decode_of_fits {r : OpRow} (hr : r ∈ opcodeMap) {t : TWord} (h : r.fits t = true) :
    ∃ i, decode t = .ok i := by
  have hk := wordKind_of_fits hr h
  simp only [opcodeMap, List.mem_cons, List.not_mem_nil, or_false] at hr
  rcases hr with rfl | rfl | rfl | rfl
  · exact decode_cmd hk (extractLsb'_of_fits h rfl)
  · exact decode_cmd hk (extractLsb'_of_fits h rfl)
  · exact ⟨_, decode_data hk⟩
  · exact ⟨_, decode_endInput hk (extractLsb'_of_fits h rfl)⟩

/-- R75, R78: the laws of the four transactions, as one. -/
theorem legalEncoding (i : Instr) : Laws.LegalEncoding.Statement i := by
  cases i with
  | cmdEncode a st => exact Laws.LegalEncoding.cmdEncode a st
  | cmdDecode a st => exact Laws.LegalEncoding.cmdDecode a st
  | data u => exact Laws.LegalEncoding.data u
  | endInput => exact Laws.LegalEncoding.endInput

/-- Settles O5: a legal word is the word of its transaction, which `legalEncoding` speaks of; a word that fits a row
decodes, so none fits a refused word. -/
theorem oneRowMatchesEachLegalWord : Obligations.OneRowMatchesEachLegalWord := by
  refine ⟨rfl, fun t => ⟨fun i hi => ?_, fun e he => ?_⟩⟩
  · rw [← encode_of_decode hi]
    exact (legalEncoding i).2
  · rw [List.filter_eq_nil_iff]
    intro r hr hfits
    obtain ⟨i, hi⟩ := exists_decode_of_fits hr hfits
    rw [he] at hi
    cases hi

/-! ### Legal and reserved words by range -/

theorem wordKind_ofNat (n : Nat) : wordKind (BitVec.ofNat 10 n) = BitVec.ofNat 2 (n / 256) := by
  apply BitVec.eq_of_toNat_eq
  rw [wordKind, BitVec.extractLsb'_toNat, BitVec.toNat_ofNat, BitVec.toNat_ofNat]
  omega

theorem wordPayload_ofNat (n : Nat) : wordPayload (BitVec.ofNat 10 n) = BitVec.ofNat 8 n := by
  apply BitVec.eq_of_toNat_eq
  rw [wordPayload, BitVec.extractLsb'_toNat, BitVec.toNat_ofNat, BitVec.toNat_ofNat]
  omega

theorem reservedBits_ofNat (n : Nat) : (BitVec.ofNat 10 n).extractLsb' 3 5 = BitVec.ofNat 5 (n / 8) := by
  apply BitVec.eq_of_toNat_eq
  rw [BitVec.extractLsb'_toNat, BitVec.toNat_ofNat, BitVec.toNat_ofNat]
  omega

section Ranges

variable {n : Nat}

theorem decode_ofNat_reservedCmdBits (hlo : 0x008 ≤ n) (hhi : n ≤ 0x0FF) :
    decode (BitVec.ofNat 10 n) = .error .reservedCmdBits :=
  decode_reservedCmdBits (by rw [wordKind_ofNat]; bv_omega) (by rw [reservedBits_ofNat]; bv_omega)

theorem decode_ofNat_endPayload (hlo : 0x201 ≤ n) (hhi : n ≤ 0x2FF) :
    decode (BitVec.ofNat 10 n) = .error .endPayload :=
  decode_endPayload (by rw [wordKind_ofNat]; bv_omega) (by rw [wordPayload_ofNat]; bv_omega)

theorem decode_ofNat_reservedKind (hlo : 0x300 ≤ n) (hhi : n ≤ 0x3FF) :
    decode (BitVec.ofNat 10 n) = .error .reservedKind :=
  decode_reservedKind (by rw [wordKind_ofNat]; bv_omega)

/-- R75: the legal words are 0x000..0x007 and 0x100..0x200. -/
theorem decode_ofNat_ok (h : n < 0x008 ∨ 0x100 ≤ n ∧ n ≤ 0x200) : ∃ i, decode (BitVec.ofNat 10 n) = .ok i := by
  have hcases : n < 0x008 ∨ (0x100 ≤ n ∧ n ≤ 0x1FF) ∨ n = 0x200 := by omega
  rcases hcases with hcmd | ⟨hlo, hhi⟩ | rfl
  · exact decode_cmd (by rw [wordKind_ofNat]; bv_omega) (by rw [reservedBits_ofNat]; bv_omega)
  · exact ⟨_, decode_data (by rw [wordKind_ofNat]; bv_omega)⟩
  · exact ⟨_, decode_encode .endInput⟩

theorem isOk_decode_ofNat (h : n < 0x008 ∨ 0x100 ≤ n ∧ n ≤ 0x200) : (decode (BitVec.ofNat 10 n)).isOk = true := by
  obtain ⟨i, hi⟩ := decode_ofNat_ok h
  rw [hi]
  rfl

theorem not_isOk_decode_ofNat (h : (0x008 ≤ n ∧ n ≤ 0x0FF) ∨ (0x201 ≤ n ∧ n ≤ 0x3FF)) :
    ¬ (decode (BitVec.ofNat 10 n)).isOk = true := by
  have hcases : (0x008 ≤ n ∧ n ≤ 0x0FF) ∨ (0x201 ≤ n ∧ n ≤ 0x2FF) ∨ (0x300 ≤ n ∧ n ≤ 0x3FF) := by omega
  rcases hcases with ⟨hlo, hhi⟩ | ⟨hlo, hhi⟩ | ⟨hlo, hhi⟩
  · rw [decode_ofNat_reservedCmdBits hlo hhi]
    exact Bool.false_ne_true
  · rw [decode_ofNat_endPayload hlo hhi]
    exact Bool.false_ne_true
  · rw [decode_ofNat_reservedKind hlo hhi]
    exact Bool.false_ne_true

end Ranges

/-- R75: the numbers below 1024, legal and reserved ranges in turn. -/
theorem range_1024 : List.range 1024 =
    List.range' 0x000 8 ++ (List.range' 0x008 248 ++ (List.range' 0x100 257 ++ List.range' 0x201 511)) := by
  rw [List.range'_append_1 (s := 0x100), List.range'_append_1 (s := 0x008), List.range'_append_1 (s := 0x000),
    List.range_eq_range']

theorem filter_isOk_legal {s m : Nat} (h : s + m ≤ 0x008 ∨ 0x100 ≤ s ∧ s + m ≤ 0x201) :
    ((List.range' s m).filter fun n => (decode (BitVec.ofNat 10 n)).isOk) = List.range' s m := by
  rw [List.filter_eq_self]
  intro n hn
  rw [List.mem_range'_1] at hn
  exact isOk_decode_ofNat (by omega)

theorem filter_isOk_reserved {s m : Nat}
    (h : (0x008 ≤ s ∧ s + m ≤ 0x100) ∨ (0x201 ≤ s ∧ s + m ≤ 0x400)) :
    ((List.range' s m).filter fun n => (decode (BitVec.ofNat 10 n)).isOk) = [] := by
  rw [List.filter_eq_nil_iff]
  intro n hn
  rw [List.mem_range'_1] at hn
  exact not_isOk_decode_ofNat (by omega)

/-- R75: 8 CMD words, 256 DATA words and the END word. -/
theorem length_filter_isOk : ((List.range 1024).filter fun n => (decode (BitVec.ofNat 10 n)).isOk).length = 265 := by
  rw [range_1024, List.filter_append, List.filter_append, List.filter_append, filter_isOk_legal (by decide),
    filter_isOk_reserved (by decide), filter_isOk_legal (by decide), filter_isOk_reserved (by decide)]
  simp only [List.length_append, List.length_range', List.length_nil]

/-- R96: a step on a reserved word. -/
theorem step_word_error {s : State} {w : TWord} {e : DecodeError} {rest : List PortEvent}
    (hp : s.pending = .word w :: rest) (hd : decode w = .error e) : step s = .refused (refusalOf e) := by
  simp [step, hp, stepEvent, stepWord, hd]

/-- Settles O4: `length_filter_isOk` for the count, and the decoder's error in each range for the refusals. -/
theorem reservedWordsAreRefusedByRange : Obligations.ReservedWordsAreRefusedByRange :=
  ⟨length_filter_isOk, fun _ _ _ hp =>
    ⟨fun hlo hhi => step_word_error hp (decode_ofNat_reservedCmdBits hlo hhi),
      fun hlo hhi => step_word_error hp (decode_ofNat_endPayload hlo hhi),
      fun hlo hhi => step_word_error hp (decode_ofNat_reservedKind hlo hhi)⟩⟩

/-- Settles O6: every clause is an equation of `expansion`. -/
theorem pseudoInstructionsExpand : Obligations.PseudoInstructionsExpand :=
  ⟨rfl, rfl, rfl, rfl, rfl, rfl, rfl, fun _ _ => rfl, rfl, fun _ _ => rfl, fun _ _ => rfl, fun _ _ => rfl⟩

/-! ### Legal words -/

/-- R75: a word is legal exactly when some transaction encodes to it. -/
theorem legalWord_iff (t : TWord) : legalWord t = true ↔ ∃ i, encode i = t := by
  constructor
  · intro h
    obtain ⟨i, hi⟩ : ∃ i, decode t = .ok i := by
      simp only [legalWord, Bool.or_eq_true, Bool.and_eq_true, beq_iff_eq] at h
      rcases h with (⟨hk, hr⟩ | hk) | ⟨hk, hp⟩
      · exact decode_cmd hk hr
      · exact ⟨_, decode_data hk⟩
      · exact ⟨_, decode_endInput hk hp⟩
    exact ⟨i, encode_of_decode hi⟩
  · rintro ⟨i, rfl⟩
    exact (legalEncoding i).1

/-! ### The assembler's lines, by operation -/

/-- R79: the forms of `CMD` and `END`. -/
theorem assembleLine_cmd_end :
    assembleLine "CMD ENCODE, STANDARD".toList = some [.cmdEncode .standard false] ∧
    assembleLine "CMD ENCODE, STANDARD, STRICT".toList = some [.cmdEncode .standard true] ∧
    assembleLine "CMD ENCODE, URL_SAFE".toList = some [.cmdEncode .urlSafe false] ∧
    assembleLine "CMD ENCODE, URL_SAFE, STRICT".toList = some [.cmdEncode .urlSafe true] ∧
    assembleLine "CMD DECODE, STANDARD".toList = some [.cmdDecode .standard false] ∧
    assembleLine "CMD DECODE, STANDARD, STRICT".toList = some [.cmdDecode .standard true] ∧
    assembleLine "CMD DECODE, URL_SAFE".toList = some [.cmdDecode .urlSafe false] ∧
    assembleLine "CMD DECODE, URL_SAFE, STRICT".toList = some [.cmdDecode .urlSafe true] ∧
    assembleLine "END".toList = some [.endInput] := by
  decide

section Operands

variable {rest : List Char} {ts : List Token}

/-- A line is its operation's name, a blank, and the tokens of its operands. -/
theorem assembleLine_op {op : List Char} {l : AsmLine} (hop : op.all (fun c => decide (nameChar c)) = true)
    (hne : op ≠ []) (hlex : lexLine (.plain []) rest = some ts) (hparse : parseTokens (.name op :: ts) = some l) :
    assembleLine (op ++ ' ' :: rest) = expand l := by
  refine assembleLine_of_tokens ?_ hparse
  rw [lexLine_name_blank op rest (nameChar_of_all hop) hne, hlex, Option.map_some]

theorem assembleLine_data {t : Token} {b : AsmByte} (hlex : lexLine (.plain []) rest = some [t])
    (hb : parseByte t = some b) : assembleLine ("DATA ".toList ++ rest) = expand (.data b) :=
  assembleLine_op (op := "DATA".toList) (by decide) (by decide) hlex (by simp [parseTokens, hb])

theorem parseTokens_datab {bs : List AsmByte} (h : parseBytes ts = some bs) :
    parseTokens (.name "DATAB".toList :: ts) = some (.datab bs) := by
  cases ts with
  | nil => simp [parseBytes] at h
  | cons t ts => simp [parseTokens, h]

theorem assembleLine_datab {bs : List AsmByte} (hlex : lexLine (.plain []) rest = some ts)
    (hbs : parseBytes ts = some bs) : assembleLine ("DATAB ".toList ++ rest) = expand (.datab bs) :=
  assembleLine_op (op := "DATAB".toList) (by decide) (by decide) hlex (parseTokens_datab hbs)

theorem parseTokens_encode {alph : List Char} {a : Alphabet} {bs : List AsmByte} (ha : parseAlph alph = some a)
    (hbs : parseBytes ts = some bs) :
    parseTokens (.name "ENCODE".toList :: .name alph :: .comma :: ts) = some (.encode a bs) := by
  simp [parseTokens, parseEncode, ha, hbs]

theorem assembleLine_encode {alph : List Char} {a : Alphabet} {bs : List AsmByte}
    (halph : alph.all (fun c => decide (nameChar c)) = true) (ha : parseAlph alph = some a) (hne : alph ≠ [])
    (hlex : lexLine (.plain []) rest = some ts) (hbs : parseBytes ts = some bs) :
    assembleLine ("ENCODE ".toList ++ (alph ++ ',' :: ' ' :: rest)) = expand (.encode a bs) := by
  refine assembleLine_op (op := "ENCODE".toList) (rest := alph ++ ',' :: ' ' :: rest) (by decide) (by decide) ?_
    (parseTokens_encode ha hbs)
  rw [lexLine_name_comma alph rest (nameChar_of_all halph) hne, hlex, Option.map_some]

end Operands

/-! ### What an accepted line expands to, and what is rejected -/

theorem expand_eq_none_iff (l : AsmLine) : expand l = none ↔ l.wellFormed = false := by
  unfold expand
  split_ifs with h <;> simp [h]

theorem expand_data_num (n : Nat) :
    expand (.data (.num n)) = if n ≤ 255 then some [.data (BitVec.ofNat 8 n)] else none := by
  simp [expand, AsmLine.wellFormed, AsmByte.wellFormed, expansion, datasOf, asmByteValue]

theorem expand_data_chr (c : Char) :
    expand (.data (.chr c)) = if c.toNat < 128 then some [.data (BitVec.ofNat 8 c.toNat)] else none := by
  simp [expand, AsmLine.wellFormed, AsmByte.wellFormed, asciiChar, expansion, datasOf, asmByteValue]

/-- R79: one byte above 255 is enough. -/
theorem not_all_wellFormed {n : Nat} (hn : 255 < n) {bs : List AsmByte} (hmem : .num n ∈ bs) :
    bs.all AsmByte.wellFormed = false := by
  rw [List.all_eq_false]
  exact ⟨_, hmem, by simp [AsmByte.wellFormed, hn]⟩

section Numerals

variable (nss : List (List (Fin 10)))

/-- R80: the bytes of a list of numerals, as `DATA`s. -/
theorem datasOf_numerals : datasOf (nss.map fun ds => .num (numeralValue ds)) =
    nss.map fun ds => .data (BitVec.ofNat 8 (numeralValue ds)) := by
  rw [datasOf, List.map_map]
  rfl

theorem expand_datab_numerals : expand (.datab (nss.map fun ds => .num (numeralValue ds))) =
    if ∀ ds ∈ nss, numeralValue ds ≤ 255 then
      some (nss.map fun ds => .data (BitVec.ofNat 8 (numeralValue ds)))
    else none := by
  rw [← datasOf_numerals]
  exact if_congr (all_num_wellFormed nss) rfl rfl

theorem expand_encode_numerals (a : Alphabet) : expand (.encode a (nss.map fun ds => .num (numeralValue ds))) =
    if ∀ ds ∈ nss, numeralValue ds ≤ 255 then
      some (.cmdEncode a false :: nss.map (fun ds => .data (BitVec.ofNat 8 (numeralValue ds))) ++ [.endInput])
    else none := by
  rw [← datasOf_numerals]
  exact if_congr (all_num_wellFormed nss) rfl rfl

end Numerals

/-! ### Whole lines and sources -/

theorem assembleLine_data_decimal (ds : List (Fin 10)) (hne : ds ≠ []) :
    assembleLine ("DATA ".toList ++ decimalText ds) =
      if numeralValue ds ≤ 255 then some [.data (BitVec.ofNat 8 (numeralValue ds))] else none := by
  have hlex := lexLine_name (decimalText ds) (nameChar_decimalText ds) (by simpa [decimalText] using hne)
  rw [assembleLine_data hlex (parseByte_decimalText ds hne), expand_data_num]

theorem nameChar_hexLiteral (ds : List (Fin 16)) : ∀ c ∈ '0' :: 'x' :: hexText ds, nameChar c := by
  intro c hc
  simp only [List.mem_cons] at hc
  rcases hc with rfl | rfl | hc
  · decide
  · decide
  · exact nameChar_hexText ds c hc

theorem assembleLine_data_hex (ds : List (Fin 16)) (hne : ds ≠ []) :
    assembleLine ("DATA 0x".toList ++ hexText ds) =
      if numeralValue ds ≤ 255 then some [.data (BitVec.ofNat 8 (numeralValue ds))] else none := by
  have hlex := lexLine_name ('0' :: 'x' :: hexText ds) (nameChar_hexLiteral ds) (List.cons_ne_nil _ _)
  have hline := assembleLine_data hlex (parseByte_hexText ds hne)
  rw [expand_data_num] at hline
  exact hline

/-- R79: any character between two apostrophes. -/
theorem lexLine_chr (c : Char) : lexLine (.plain []) [apostrophe, c, apostrophe] = some [.chr c] := rfl

theorem assembleLine_data_chr (c : Char) :
    assembleLine ("DATA ".toList ++ [apostrophe, c, apostrophe]) =
      if c.toNat < 128 then some [.data (BitVec.ofNat 8 c.toNat)] else none := by
  rw [assembleLine_data (lexLine_chr c) rfl, expand_data_chr]

section NumeralLists

variable {nss : List (List (Fin 10))} (h0 : nss ≠ []) (h : ∀ ds ∈ nss, ds ≠ [])
include h0 h

theorem assembleLine_datab_numerals : assembleLine ("DATAB ".toList ++ decimalListText nss) =
    if ∀ ds ∈ nss, numeralValue ds ≤ 255 then
      some (nss.map fun ds => .data (BitVec.ofNat 8 (numeralValue ds)))
    else none := by
  rw [assembleLine_datab (lexLine_decimalListText nss h) (parseBytes_decimalTokens nss h0 h), expand_datab_numerals]

theorem assembleLine_encode_numerals {alph : List Char} {a : Alphabet}
    (halph : alph.all (fun c => decide (nameChar c)) = true) (ha : parseAlph alph = some a) (hne : alph ≠ []) :
    assembleLine ("ENCODE ".toList ++ (alph ++ ',' :: ' ' :: decimalListText nss)) =
      if ∀ ds ∈ nss, numeralValue ds ≤ 255 then
        some (.cmdEncode a false :: nss.map (fun ds => .data (BitVec.ofNat 8 (numeralValue ds))) ++ [.endInput])
      else none := by
  rw [assembleLine_encode halph ha hne (lexLine_decimalListText nss h) (parseBytes_decimalTokens nss h0 h),
    expand_encode_numerals]

end NumeralLists

/-- R79: a comment has no effect on its line. -/
theorem assembleLine_comment (line comment : List Char) (h1 : apostrophe ∉ line) (h2 : doubleQuote ∉ line) :
    assembleLine (line ++ ';' :: comment) = assembleLine line := by
  rw [assembleLine, parseLine, lexLine_comment line comment h1 h2, assembleLine, parseLine]

/-- R79: a source is assembled line by line, in order. -/
theorem assemble_eq_mapM (lines : List (List Char)) : assemble lines = (lines.mapM assembleLine).map List.flatten := by
  induction lines with
  | nil => rfl
  | cons line lines ih =>
    rw [assemble, ih, List.mapM_cons]
    cases assembleLine line with
    | none => rfl
    | some is => cases lines.mapM assembleLine <;> rfl

/-! ### Every legal word has a line -/

/-- The two hexadecimal digits of a byte. -/
def hexDigits (u : Byte) : List (Fin 16) :=
  [⟨u.toNat / 16, by omega⟩, ⟨u.toNat % 16, by omega⟩]

theorem numeralValue_hexDigits (u : Byte) : numeralValue (hexDigits u) = u.toNat := by
  have hsum : numeralValue (hexDigits u) = u.toNat / 16 * 16 + u.toNat % 16 := by
    simp [hexDigits, numeralValue, Nat.ofDigits_cons, Nat.add_comm, Nat.mul_comm]
  rw [hsum, Nat.div_add_mod']

/-- R79: each transaction has a line of its own; a DATA has its two hexadecimal digits. -/
theorem exists_line (i : Instr) : ∃ line, assembleLine line = some [i] := by
  obtain ⟨hES, hESs, hEU, hEUs, hDS, hDSs, hDU, hDUs, hEnd⟩ := assembleLine_cmd_end
  cases i with
  | cmdEncode a st =>
    cases a <;> cases st
    · exact ⟨_, hES⟩
    · exact ⟨_, hESs⟩
    · exact ⟨_, hEU⟩
    · exact ⟨_, hEUs⟩
  | cmdDecode a st =>
    cases a <;> cases st
    · exact ⟨_, hDS⟩
    · exact ⟨_, hDSs⟩
    · exact ⟨_, hDU⟩
    · exact ⟨_, hDUs⟩
  | data u =>
    have hline := assembleLine_data_hex (hexDigits u) (List.cons_ne_nil _ _)
    rw [numeralValue_hexDigits, if_pos (by omega), BitVec.ofNat_toNat, BitVec.setWidth_eq] at hline
    exact ⟨_, hline⟩
  | endInput => exact ⟨_, hEnd⟩

/-- R75, R79: the words that lines of one transaction make. -/
theorem legalWord_iff_line (t : TWord) :
    legalWord t = true ↔ ∃ line i, assembleLine line = some [i] ∧ encode i = t := by
  rw [legalWord_iff]
  constructor
  · rintro ⟨i, hi⟩
    obtain ⟨line, hline⟩ := exists_line i
    exact ⟨line, i, hline, hi⟩
  · rintro ⟨_, i, _, hi⟩
    exact ⟨i, hi⟩

/-- Settles O7: the lemmas of the text forms, with both alphabets' names for `ENCODE`. -/
theorem assemblerMakesOnlyLegalWords : Obligations.AssemblerMakesOnlyLegalWords := by
  refine ⟨assembleLine_cmd_end, assembleLine_data_decimal, assembleLine_data_hex, assembleLine_data_chr,
    fun nss h0 h => ⟨assembleLine_datab_numerals h0 h, ?_, ?_⟩, fun n hn => ?_, fun n a bs hn => ⟨?_, fun hmem => ?_⟩,
    assembleLine_comment, assemble_eq_mapM, legalWord_iff_line⟩
  · exact assembleLine_encode_numerals h0 h (alph := "STANDARD".toList) (by decide) rfl (by decide)
  · exact assembleLine_encode_numerals h0 h (alph := "URL_SAFE".toList) (by decide) rfl (by decide)
  · rw [expand_data_num, if_pos hn]
  · rw [expand_data_num, if_neg (by omega)]
  · have hbs := not_all_wellFormed hn hmem
    exact ⟨(expand_eq_none_iff _).2 hbs, (expand_eq_none_iff _).2 hbs⟩

end Sys2Proof.Machine

/-! The control rules (40_control.md R90 to R96): what is refused and under which name, the start of an operation, that
an encode never reads STRICT, and DATA and END in DRAIN. -/

namespace Sys2Proof.Machine

/-! ### Refusals -/

section Refused

variable {s : State}

/-- R90: CMD.ENCODE in RUN or DRAIN. -/
theorem exec_cmdEncode_busy (h : s.phase = .run ∨ s.phase = .drain) (a : Alphabet) (st : Bool) :
    exec (.cmdEncode a st) s = .refused .cmdWhileBusy := by
  rcases h with hp | hp
  · simp [exec, execCmdEncode, hp]
  · simp [exec, execCmdEncode, hp]

/-- R91: CMD.DECODE in RUN or DRAIN. -/
theorem exec_cmdDecode_busy (h : s.phase = .run ∨ s.phase = .drain) (a : Alphabet) (st : Bool) :
    exec (.cmdDecode a st) s = .refused .cmdWhileBusy := by
  rcases h with hp | hp
  · simp [exec, execCmdDecode, hp]
  · simp [exec, execCmdDecode, hp]

/-- R92: DATA in IDLE or DONE. -/
theorem exec_data_idle (h : s.phase = .idle ∨ s.phase = .done) (u : Byte) :
    exec (.data u) s = .refused .dataWhileIdle := by
  rcases h with hp | hp
  · simp [exec, execData, hp]
  · simp [exec, execData, hp]

/-- R93: END in IDLE or DONE. -/
theorem exec_end_idle (h : s.phase = .idle ∨ s.phase = .done) : exec .endInput s = .refused .endWhileIdle := by
  rcases h with hp | hp
  · simp [exec, execEnd, hp]
  · simp [exec, execEnd, hp]

/-- R96: a run takes no step after a refusal. -/
theorem runSteps_refused {r : Refusal} (h : step s = .refused r) (n : Nat) : runSteps (n + 1) s = .refused r := by
  rw [runSteps, h]

end Refused

/-- Settles O15: `step_word_error` for a reserved word, a refusal lemma for each transaction, and the two refused reads
as `hostReadsChangeNothing` has them. -/
theorem refusalsByName : Obligations.RefusalsByName := by
  refine ⟨fun s w e rest hp hd => ?_, fun s a st hp => ⟨exec_cmdEncode_busy hp a st, exec_cmdDecode_busy hp a st⟩,
    fun s u hp => ⟨exec_data_idle hp u, exec_end_idle hp⟩, fun s n rest hp hn => ?_, fun s i rest hp hi => ?_,
    fun s r h n => runSteps_refused h n⟩
  · rw [step_word_error hp hd]
    cases e <;> rfl
  · obtain ⟨_, _, _, _, hreg, _⟩ := hostReadsChangeNothing s rest
    exact hreg n hn hp
  · obtain ⟨_, _, _, _, _, _, hout⟩ := hostReadsChangeNothing s rest
    exact hout i hi hp

/-! ### The start of an operation -/

/-- R23: the value CMD.ENCODE latches, with the bit of ALPH written out. -/
theorem cfgValue_encode (a : Alphabet) (st : Bool) :
    cfgValue .encode a st = 0#5 ++ BitVec.ofBool st ++ BitVec.ofBool (a == .urlSafe) ++ 0#1 := by
  cases a <;> rfl

/-- R23: the value CMD.DECODE latches. -/
theorem cfgValue_decode (a : Alphabet) (st : Bool) :
    cfgValue .decode a st = 0#5 ++ BitVec.ofBool st ++ BitVec.ofBool (a == .urlSafe) ++ 1#1 := by
  cases a <;> rfl

/-- R24, R90, R91: STATUS when an operation has started. -/
theorem status_startOperation (s : State) (c : Byte) : (s.startOperation c).status = 0x01#8 :=
  statusByte_run

/-- Settles O17: the word by `decode_eq_ok_iff`, the effect by `exec_cmdDecode_next_iff`. -/
theorem cmdDecodeStartsAnOperation : Obligations.CmdDecodeStartsAnOperation := by
  refine ⟨fun a st => ?_, fun s a st hp => ?_, fun s t a st h => ?_, fun s a st hp => exec_cmdDecode_busy hp a st⟩
  · rw [decode_eq_ok_iff]
    cases a <;> rfl
  · rw [exec_cmdDecode_next_iff, ← cfgValue_decode]
    exact ⟨hp, rfl⟩
  · obtain ⟨_, rfl⟩ := (exec_cmdDecode_next_iff a st).1 h
    exact status_startOperation s _

/-! ### An encode does not read STRICT -/

/-- `CFG.STRICT <- not CFG.STRICT`, to say that an encode does not read it. -/
def State.flipStrict (s : State) : State := { s with cfg := s.cfg ^^^ 0x04#8 }

/-- R23: STRICT is neither OP nor ALPH. -/
theorem cfgOp_flipStrict (s : State) : cfgOp s.flipStrict.cfg = cfgOp s.cfg := by
  simp [State.flipStrict, cfgOp]

theorem cfgAlph_flipStrict (s : State) : cfgAlph s.flipStrict.cfg = cfgAlph s.cfg := by
  simp [State.flipStrict, cfgAlph]

section StrictIsNotRead

variable {s : State}

/-- An emission, and an update that leaves STRICT to the state after it. -/
theorem emit_map_flipStrict (us : List Byte) {f : State → State} (hf : ∀ t, f t.flipStrict = (f t).flipStrict) :
    (emit us s.flipStrict).map f = ((emit us s).map f).map State.flipStrict := by
  by_cases hroom : s.room us.length
  · rw [emit_of_room hroom, emit_of_room (s := s.flipStrict) hroom]
    exact congrArg Except.ok (hf (s.appendOut us))
  · rw [emit_of_not_room hroom, emit_of_not_room (s := s.flipStrict) hroom]
    rfl

theorem encData_flipStrict (u : Byte) : encData u s.flipStrict = (encData u s).map State.flipStrict := by
  have hec : s.flipStrict.ec = s.ec := rfl
  unfold encData
  rw [hec, cfgAlph_flipStrict]
  split
  · rfl
  · rfl
  · exact emit_map_flipStrict _ fun _ => rfl

theorem encEnd_flipStrict : encEnd s.flipStrict = (encEnd s).map State.flipStrict := by
  have hec : s.flipStrict.ec = s.ec := rfl
  unfold encEnd
  rw [hec, cfgAlph_flipStrict]
  split
  · rfl
  · exact emit_map_flipStrict _ fun _ => rfl
  · exact emit_map_flipStrict _ fun _ => rfl

theorem settle_flipStrict (r : Raiser) (x : Except ErrCode State) :
    settle r s.flipStrict (x.map State.flipStrict) = (settle r s x).flipStrict := by
  cases x with
  | ok t => rfl
  | error e => cases r <;> rfl

/-- R90, D6: the datapath of a DATA of an encode. -/
theorem datapathData_flipStrict (hop : cfgOp s.cfg = .encode) (u : Byte) :
    datapathData u s.flipStrict = (datapathData u s).map State.flipStrict := by
  unfold datapathData
  rw [cfgOp_flipStrict, hop]
  exact encData_flipStrict u

/-- R90, D6: the datapath of the END of an encode. -/
theorem datapathEnd_flipStrict (hop : cfgOp s.cfg = .encode) :
    datapathEnd s.flipStrict = (datapathEnd s).map State.flipStrict := by
  unfold datapathEnd
  rw [cfgOp_flipStrict, hop]
  exact encEnd_flipStrict

theorem exec_data_flipStrict {t : State} {u : Byte} (hop : cfgOp s.cfg = .encode) (h : exec (.data u) s = .next t) :
    exec (.data u) s.flipStrict = .next t.flipStrict := by
  rcases phase_of_exec_next (.inl ⟨u, rfl⟩) h with hp | hp
  · cases (exec_data_run hp u).symm.trans h
    refine (exec_data_run (s := s.flipStrict) hp u).trans ?_
    rw [show s.flipStrict.countUnit = s.countUnit.flipStrict from rfl, datapathData_flipStrict (s := s.countUnit) hop,
      settle_flipStrict]
  · cases (exec_data_drain hp u).symm.trans h
    exact exec_data_drain (s := s.flipStrict) hp u

theorem exec_end_flipStrict {t : State} (hop : cfgOp s.cfg = .encode) (h : exec .endInput s = .next t) :
    exec .endInput s.flipStrict = .next t.flipStrict := by
  rcases phase_of_exec_next (.inr rfl) h with hp | hp
  · cases (exec_end_run hp).symm.trans h
    refine (exec_end_run (s := s.flipStrict) hp).trans ?_
    rw [datapathEnd_flipStrict hop, settle_flipStrict]
    rfl
  · cases (exec_end_drain hp).symm.trans h
    exact exec_end_drain (s := s.flipStrict) hp

end StrictIsNotRead

/-- Settles O16: the word and the effect as for CMD.DECODE, and STRICT flipped under DATA and under END. -/
theorem cmdEncodeStartsAnOperation : Obligations.CmdEncodeStartsAnOperation := by
  refine ⟨fun a st => ?_, fun s a st hp => ?_, fun s t a st h => ?_, fun s a st hp => exec_cmdEncode_busy hp a st,
    fun s t i hop hi h => ?_⟩
  · rw [decode_eq_ok_iff]
    cases a <;> rfl
  · rw [exec_cmdEncode_next_iff, ← cfgValue_encode]
    exact ⟨hp, rfl⟩
  · obtain ⟨_, rfl⟩ := (exec_cmdEncode_next_iff a st).1 h
    exact status_startOperation s _
  · rcases hi with ⟨u, rfl⟩ | rfl
    · exact exec_data_flipStrict hop h
    · exact exec_end_flipStrict hop h

/-! ### DATA and END in DRAIN -/

/-- Settles O19: R94 as `exec_data_drain` has it. -/
theorem dataInDrainChangesNothing : Obligations.DataInDrainChangesNothing :=
  fun _ u hp => exec_data_drain hp u

/-- R24, R95: STATUS in DONE after an error. -/
theorem statusByte_done_error {e : ErrCode} (he : e ≠ .none) :
    statusByte .done e = 0x02#8 ||| (e.code.setWidth 8 <<< 3) := by
  cases e with
  | none => exact absurd rfl he
  | invalidCharacter => rfl
  | truncatedInput => rfl
  | allocationFailure => rfl

/-- R24: OUT_VALID is 0 after an error, in every phase. -/
theorem outValid_of_error {s : State} (he : s.err ≠ .none) : s.outValid = false := by
  simp [State.outValid, he]

/-- Settles O20: `exec_end_drain` for the effect; the invariant has an error in DRAIN, which END keeps. -/
theorem endInDrainOnlyCloses : Obligations.EndInDrainOnlyCloses := by
  intro s hp
  refine ⟨exec_end_drain hp, fun hinv => ?_⟩
  obtain ⟨_, ⟨_, _, hdrain, _⟩, _⟩ := (inv_iff s).1 hinv
  have herr : s.err ≠ .none := hdrain hp
  exact ⟨statusByte_done_error herr, outValid_of_error (s := s.setPhase .done) herr⟩

end Sys2Proof.Machine

/-! The encoder (41_encoder.md R100 to R111): DATA and END of an encode for every EC, what they raise and never read, the
function `Encode` and its laws, and the operation that computes it. -/

namespace Sys2Proof.Machine

/-! ### The splitter and the fields of a group -/

/-- Settles O21: each lane bit by bit, over the three bytes of a packed group. -/
theorem splitterLanes : Obligations.SplitterLanes := by
  refine ⟨fun w => ⟨rfl, rfl, rfl, rfl⟩, fun b0 b1 b2 => ?_⟩
  rw [← pack]
  refine ⟨?_, ?_, ?_, ?_⟩ <;> apply BitVec.eq_of_getLsbD_eq <;> intro i hi <;>
    simp only [lane_getLsbD, pack_getLsbD, BitVec.getLsbD_append, BitVec.getLsbD_extractLsb'] <;>
    interval_cases i <;> simp

/-- R103: the group of the first byte. -/
theorem pack_zeros (u : Byte) : pack u 0#8 0#8 = u ++ 0#16 := by
  apply BitVec.eq_of_getLsbD_eq
  intro i hi
  rw [pack_getLsbD, BitVec.getLsbD_append]
  split_ifs <;> simp
  omega

/-- R103: the group of the third byte, `EG[23:8] ++ u`. -/
theorem pack_bytes (w : Word24) (u : Byte) : pack (byteHigh w) (byteMid w) u = w.extractLsb' 8 16 ++ u := by
  apply BitVec.eq_of_getLsbD_eq
  intro i hi
  simp only [pack_getLsbD, byteHigh, byteMid, BitVec.getLsbD_append, BitVec.getLsbD_extractLsb']
  split_ifs
  · rfl
  · simp [show i - 8 < 8 by omega, show i - 8 < 16 by omega]
  · simp [show i - 16 < 8 by omega, show i - 8 < 16 by omega, show 16 + (i - 16) = 8 + (i - 8) by omega]

/-- R28: in a clean group every bit below the bytes held is zero. -/
theorem getLsbD_of_shiftLeft_eq_zero {w : Word24} {n i : Nat} (h : w <<< n = 0#24) (hi : i + n < 24) :
    w.getLsbD i = false := by
  have hbit : (w <<< n).getLsbD (i + n) = false := by rw [h, BitVec.getLsbD_zero]
  rw [BitVec.getLsbD_shiftLeft, Nat.add_sub_cancel] at hbit
  simpa only [hi, Nat.not_lt.2 (Nat.le_add_left n i), decide_true, decide_false, Bool.not_false, Bool.true_and] using hbit

/-- R104: lane 1 of a clean group of one byte. -/
theorem lane1_of_clean {w : Word24} (h : w <<< 8 = 0#24) : w.extractLsb' 12 6 = w.extractLsb' 16 2 ++ 0#4 := by
  apply BitVec.eq_of_getLsbD_eq
  intro i hi
  rw [BitVec.getLsbD_append, BitVec.getLsbD_extractLsb', BitVec.getLsbD_extractLsb']
  split_ifs
  · simp [getLsbD_of_shiftLeft_eq_zero h (show 12 + i + 8 < 24 by omega)]
  · simp [hi, show i - 4 < 2 by omega, show 16 + (i - 4) = 12 + i by omega]

/-- R104: lane 2 of a clean group of two bytes. -/
theorem lane2_of_clean {w : Word24} (h : w <<< 16 = 0#24) : w.extractLsb' 6 6 = w.extractLsb' 8 4 ++ 0#2 := by
  apply BitVec.eq_of_getLsbD_eq
  intro i hi
  rw [BitVec.getLsbD_append, BitVec.getLsbD_extractLsb', BitVec.getLsbD_extractLsb']
  split_ifs
  · simp [getLsbD_of_shiftLeft_eq_zero h (show 6 + i + 16 < 24 by omega)]
  · simp [hi, show i - 2 < 4 by omega, show 8 + (i - 2) = 6 + i by omega]

/-! ### DATA and END of an encode, for every EC -/

section EncodeInRun

variable {s : State} (hp : s.phase = .run) (hop : cfgOp s.cfg = .encode)

include hp hop

theorem exec_data_encode (u : Byte) :
    exec (.data u) s = .next (settle .data s.countUnit (encData u s.countUnit)) := by
  rw [exec_data_run hp, datapathData, State.countUnit_cfg, hop]

theorem exec_end_encode : exec .endInput s = .next ((settle .endInput s (encEnd s)).setPhase .done) := by
  rw [exec_end_run hp, datapathEnd, hop]

/-- R103, EC = 0. -/
theorem exec_data_first (hc : s.ec = 0) (u : Byte) :
    exec (.data u) s = .next (s.countUnit.setGroup (pack u 0#8 0#8) 1) := by
  rw [exec_data_encode hp hop, encData, State.countUnit_ec, hc]
  rfl

/-- R103, EC = 1. -/
theorem exec_data_second (hc : s.ec = 1) (u : Byte) :
    exec (.data u) s = .next (s.countUnit.setGroup (pack (byteHigh s.eg) u 0#8) 2) := by
  rw [exec_data_encode hp hop, encData, State.countUnit_ec, hc]
  rfl

/-- R103, EC = 2, where the group fits. -/
theorem exec_data_third (hc : s.ec = 2) (hroom : s.room 4) (u : Byte) :
    exec (.data u) s = .next
      ((s.countUnit.appendOut (groupChars (cfgAlph s.cfg) (pack (byteHigh s.eg) (byteMid s.eg) u))).setGroup 0#24 0) := by
  rw [exec_data_encode hp hop, encData, State.countUnit_ec, hc]
  dsimp only
  rw [emit_of_room (by exact hroom)]
  rfl

/-- R103, R154: EC = 2, where it does not. -/
theorem exec_data_third_full (hc : s.ec = 2) (hroom : ¬ s.room 4) (u : Byte) :
    exec (.data u) s = .next (s.countUnit.raiseErr .data .allocationFailure) := by
  have hraise := (datapathData_error_iff u s.countUnit .allocationFailure).2 (.inl ⟨rfl, hop, hc, hroom⟩)
  rw [exec_data_run hp, hraise, settle_error]

/-- R104, EC = 0. -/
theorem exec_end_zero (hc : s.ec = 0) : exec .endInput s = .next (s.setPhase .done) := by
  rw [exec_end_encode hp hop, encEnd, hc]
  rfl

/-- R104, EC = 1, where the tail fits. -/
theorem exec_end_one (hc : s.ec = 1) (hroom : s.room 4) :
    exec .endInput s = .next
      (((s.appendOut (tailChars1 (cfgAlph s.cfg) s.eg)).setGroup 0#24 0).setPhase .done) := by
  rw [exec_end_encode hp hop, encEnd, hc]
  dsimp only
  rw [emit_of_room (by exact hroom)]
  rfl

/-- R104, EC = 2, where the tail fits. -/
theorem exec_end_two (hc : s.ec = 2) (hroom : s.room 4) :
    exec .endInput s = .next
      (((s.appendOut (tailChars2 (cfgAlph s.cfg) s.eg)).setGroup 0#24 0).setPhase .done) := by
  rw [exec_end_encode hp hop, encEnd, hc]
  dsimp only
  rw [emit_of_room (by exact hroom)]
  rfl

/-- R104, R154: a tail that does not fit. -/
theorem exec_end_full (hc : s.ec ≠ 0) (hroom : ¬ s.room 4) :
    exec .endInput s = .next ((s.raiseErr .endInput .allocationFailure).setPhase .done) := by
  rw [exec_end_run hp, (datapathEnd_error_iff s .allocationFailure).2 (.inl ⟨rfl, hop, hc, hroom⟩), settle_error]

end EncodeInRun

/-- Settles O22, by the lemma for each EC, the group written as the rule writes it. -/
theorem dataOfAnEncode : Obligations.DataOfAnEncode := by
  intro s u hp hop
  refine ⟨fun hc => ?_, fun hc => ?_, fun hc hroom w hw => ?_, fun hc hroom => ?_⟩
  · rw [exec_data_first hp hop hc, pack_zeros]
    rfl
  · exact exec_data_second hp hop hc u
  · rw [exec_data_third hp hop hc hroom, pack_bytes, ← hw]
    rfl
  · exact exec_data_third_full hp hop hc hroom u

/-- Settles O23, by the lemma for each EC; the zeros come from the clean group. -/
theorem endOfAnEncode : Obligations.EndOfAnEncode := by
  intro s hp hop
  refine ⟨fun hc => exec_end_zero hp hop hc, fun hc hroom => exec_end_one hp hop hc hroom,
    fun hc hroom => exec_end_two hp hop hc hroom, fun hc hroom => exec_end_full hp hop hc hroom,
    fun hclean hc => lane1_of_clean ?_, fun hclean hc => lane2_of_clean ?_⟩
  · simpa [GroupClean, hc] using hclean
  · simpa [GroupClean, hc] using hclean

/-- R93, R153: the ERR a datapath rule leaves is the one before it, or the error it raised. -/
theorem settle_err {r : Raiser} {s : State} {x : Except ErrCode State} (hframe : ∀ t, x = .ok t → DatapathFrame s t)
    (hraise : ∀ e, x = .error e → e = .allocationFailure) :
    (settle r s x).err = s.err ∨ (settle r s x).err = .allocationFailure := by
  cases x with
  | ok t => exact .inl (hframe t rfl).err
  | error e =>
    cases hraise e rfl
    cases r <;> exact .inr rfl

/-- Settles O24: in RUN both transactions are accepted, and an encoder rule that fails raises AllocationFailure. -/
theorem encodeRaisesOnlyAllocationFailure : Obligations.EncodeRaisesOnlyAllocationFailure := by
  rintro s i hp herr hop (⟨u, rfl⟩ | rfl)
  · refine ⟨_, exec_data_run hp u, ?_⟩
    have hraise : ∀ e, datapathData u s.countUnit = .error e → e = .allocationFailure := by
      intro e he
      rw [datapathData, State.countUnit_cfg, hop] at he
      exact (encData_error he).1
    exact (settle_err (fun _ => datapathData_frame) hraise).imp_left (·.trans herr)
  · refine ⟨_, exec_end_run hp, ?_⟩
    have hraise : ∀ e, datapathEnd s = .error e → e = .allocationFailure := by
      intro e he
      rw [datapathEnd, hop] at he
      exact (encEnd_error he).1
    exact (settle_err (fun _ => datapathEnd_frame) hraise).imp_left (·.trans herr)

/-! ### The encoder and the decoder read only their own registers -/

/-- An update that the control rules, emission and error entry do not notice: what they do before it they do after it. -/
structure OutsideControl (g : State → State) : Prop where
  phase : ∀ s, (g s).phase = s.phase
  cfg : ∀ s, (g s).cfg = s.cfg
  room : ∀ s n, (g s).room n ↔ s.room n
  countUnit : ∀ s, (g s).countUnit = g s.countUnit
  appendOut : ∀ s us, (g s).appendOut us = g (s.appendOut us)
  setPhase : ∀ s p, (g s).setPhase p = g (s.setPhase p)
  raiseErr : ∀ s r e, (g s).raiseErr r e = g (s.raiseErr r e)

theorem outsideControl_setQuantum (q : Word24) (k : Fin 4) : OutsideControl (·.setQuantum q k) where
  phase _ := rfl
  cfg _ := rfl
  room _ _ := .rfl
  countUnit _ := rfl
  appendOut _ _ := rfl
  setPhase _ _ := rfl
  raiseErr _ r _ := by cases r <;> rfl

theorem outsideControl_setGroup (eg : Word24) (ec : Fin 3) : OutsideControl (·.setGroup eg ec) where
  phase _ := rfl
  cfg _ := rfl
  room _ _ := .rfl
  countUnit _ := rfl
  appendOut _ _ := rfl
  setPhase _ _ := rfl
  raiseErr _ r _ := by cases r <;> rfl

section OutsideControl

variable {g : State → State} (hg : OutsideControl g) {s : State}

include hg

/-- An emission, and an update `f` that `g` does not notice either. -/
theorem OutsideControl.emit_map (us : List Byte) {f : State → State} (hf : ∀ t, f (g t) = g (f t)) :
    (emit us (g s)).map f = ((emit us s).map f).map g := by
  by_cases hroom : s.room us.length
  · rw [emit_of_room hroom, emit_of_room ((hg.room s _).2 hroom), hg.appendOut]
    exact congrArg Except.ok (hf (s.appendOut us))
  · rw [emit_of_not_room hroom, emit_of_not_room (mt (hg.room s _).1 hroom)]
    rfl

theorem OutsideControl.settle_map (r : Raiser) (x : Except ErrCode State) :
    settle r (g s) (x.map g) = g (settle r s x) := by
  cases x with
  | ok t => rfl
  | error e => exact hg.raiseErr s r e

/-- R92, R94: a DATA does not notice `g` where its datapath does not. -/
theorem OutsideControl.exec_data {t : State} {u : Byte}
    (hpath : datapathData u (g s.countUnit) = (datapathData u s.countUnit).map g)
    (h : exec (.data u) s = .next t) : exec (.data u) (g s) = .next (g t) := by
  rcases phase_of_exec_next (.inl ⟨u, rfl⟩) h with hp | hp
  · cases (exec_data_run hp u).symm.trans h
    rw [exec_data_run ((hg.phase s).trans hp), hg.countUnit, hpath, hg.settle_map]
  · cases (exec_data_drain hp u).symm.trans h
    exact exec_data_drain ((hg.phase s).trans hp) u

/-- R93, R95: nor does an END. -/
theorem OutsideControl.exec_end {t : State} (hpath : datapathEnd (g s) = (datapathEnd s).map g)
    (h : exec .endInput s = .next t) : exec .endInput (g s) = .next (g t) := by
  rcases phase_of_exec_next (.inr rfl) h with hp | hp
  · cases (exec_end_run hp).symm.trans h
    rw [exec_end_run ((hg.phase s).trans hp), hpath, hg.settle_map, hg.setPhase]
  · cases (exec_end_drain hp).symm.trans h
    rw [exec_end_drain ((hg.phase s).trans hp), hg.setPhase]

end OutsideControl

section EncoderReadsNoQuantum

variable (s : State) (q : Word24) (k : Fin 4)

theorem encData_setQuantum (u : Byte) : encData u (s.setQuantum q k) = (encData u s).map (·.setQuantum q k) := by
  unfold encData
  rw [State.setQuantum_ec]
  split
  · rfl
  · rfl
  · exact (outsideControl_setQuantum q k).emit_map _ fun _ => rfl

theorem encEnd_setQuantum : encEnd (s.setQuantum q k) = (encEnd s).map (·.setQuantum q k) := by
  unfold encEnd
  rw [State.setQuantum_ec]
  split
  · rfl
  · exact (outsideControl_setQuantum q k).emit_map _ fun _ => rfl
  · exact (outsideControl_setQuantum q k).emit_map _ fun _ => rfl

/-- R100, of the datapaths. -/
theorem datapathData_setQuantum (hop : cfgOp s.cfg = .encode) (u : Byte) :
    datapathData u (s.setQuantum q k) = (datapathData u s).map (·.setQuantum q k) := by
  unfold datapathData
  rw [State.setQuantum_cfg, hop]
  exact encData_setQuantum s q k u

theorem datapathEnd_setQuantum (hop : cfgOp s.cfg = .encode) :
    datapathEnd (s.setQuantum q k) = (datapathEnd s).map (·.setQuantum q k) := by
  unfold datapathEnd
  rw [State.setQuantum_cfg, hop]
  exact encEnd_setQuantum s q k

end EncoderReadsNoQuantum

section DecoderReadsNoGroup

variable (s : State) (eg : Word24) (ec : Fin 3)

theorem terminate_setGroup : terminate (s.setGroup eg ec) = (terminate s).map (·.setGroup eg ec) := by
  unfold terminate
  rw [State.setGroup_dk]
  split
  · rfl
  · rfl
  · exact (outsideControl_setGroup eg ec).emit_map _ fun _ => rfl
  · exact (outsideControl_setGroup eg ec).emit_map _ fun _ => rfl

theorem acceptSextet_setGroup (v : Sextet) :
    acceptSextet v (s.setGroup eg ec) = (acceptSextet v s).map (·.setGroup eg ec) := by
  unfold acceptSextet
  rw [State.setGroup_dk]
  split
  · exact (outsideControl_setGroup eg ec).emit_map _ fun _ => rfl
  · rfl

theorem decData_setGroup (u : Byte) : decData u (s.setGroup eg ec) = (decData u s).map (·.setGroup eg ec) := by
  unfold decData
  rw [State.setGroup_cfg]
  split
  · exact acceptSextet_setGroup s eg ec _
  · exact terminate_setGroup s eg ec
  · split
    · rfl
    · exact terminate_setGroup s eg ec

/-- R120, of the datapaths. -/
theorem datapathData_setGroup (hop : cfgOp s.cfg = .decode) (u : Byte) :
    datapathData u (s.setGroup eg ec) = (datapathData u s).map (·.setGroup eg ec) := by
  unfold datapathData
  rw [State.setGroup_cfg, hop]
  exact decData_setGroup s eg ec u

theorem datapathEnd_setGroup (hop : cfgOp s.cfg = .decode) :
    datapathEnd (s.setGroup eg ec) = (datapathEnd s).map (·.setGroup eg ec) := by
  unfold datapathEnd
  rw [State.setGroup_cfg, hop]
  exact terminate_setGroup s eg ec

end DecoderReadsNoGroup

/-- Settles O44: both replacements are outside the control rules, and the other datapath does not read what they write. -/
theorem datapathsNeverReadEachOther : Obligations.DatapathsNeverReadEachOther := by
  rintro s t i (⟨u, rfl⟩ | rfl) h
  · exact ⟨fun hop q k => (outsideControl_setQuantum q k).exec_data (datapathData_setQuantum s.countUnit q k hop u) h,
      fun hop eg ec => (outsideControl_setGroup eg ec).exec_data (datapathData_setGroup s.countUnit eg ec hop u) h⟩
  · exact ⟨fun hop q k => (outsideControl_setQuantum q k).exec_end (datapathEnd_setQuantum s q k hop) h,
      fun hop eg ec => (outsideControl_setGroup eg ec).exec_end (datapathEnd_setGroup s eg ec hop) h⟩

/-! ### The laws of `Encode` -/

/-- R108: every group and every tail has four units. -/
theorem length_encodeAll (a : Alphabet) (b : List Byte) : (encodeAll a b).length = 4 * ((b.length + 2) / 3) := by
  induction b using encodeAll.induct with
  | case1 => rfl
  | case2 b0 => simp [encodeAll, tailChars1]
  | case3 b0 b1 => simp [encodeAll, tailChars2]
  | case4 b0 b1 b2 rest ih =>
    simp only [encodeAll, groupChars, List.length_append, List.length_cons, List.length_nil, ih]
    omega

/-- R105: the number of padding units of an encoding of `n` bytes. -/
def padCount (n : Nat) : Nat := (3 - n % 3) % 3

/-- R102: a lane's character is one of the alphabet. -/
theorem laneChar_eq_fwdLUT (a : Alphabet) (w : Word24) (j : Fin 4) : ∃ v, laneChar a w j = fwdLUT a v :=
  ⟨lane w j, rfl⟩

/-- R105, R109: an encoding is characters of the alphabet and then its padding. -/
theorem encodeAll_eq_chars_append_pad (a : Alphabet) (b : List Byte) :
    ∃ chars, encodeAll a b = chars ++ List.replicate (padCount b.length) padCode ∧ ∀ u ∈ chars, ∃ v, u = fwdLUT a v := by
  induction b using encodeAll.induct with
  | case1 => exact ⟨[], by simp [encodeAll, padCount], by simp⟩
  | case2 b0 =>
    refine ⟨[laneChar a (pack b0 0#8 0#8) 0, laneChar a (pack b0 0#8 0#8) 1], ?_, ?_⟩
    · simp [encodeAll, tailChars1, padCount, List.replicate]
    · simp [laneChar_eq_fwdLUT]
  | case3 b0 b1 =>
    refine ⟨[laneChar a (pack b0 b1 0#8) 0, laneChar a (pack b0 b1 0#8) 1, laneChar a (pack b0 b1 0#8) 2], ?_, ?_⟩
    · simp [encodeAll, tailChars2, padCount]
    · simp [laneChar_eq_fwdLUT]
  | case4 b0 b1 b2 rest ih =>
    obtain ⟨chars, heq, hmem⟩ := ih
    have hpad : padCount (b0 :: b1 :: b2 :: rest).length = padCount rest.length := by
      simp only [padCount, List.length_cons]
      omega
    refine ⟨groupChars a (pack b0 b1 b2) ++ chars, ?_, ?_⟩
    · rw [encodeAll, heq, hpad, List.append_assoc]
    · simpa [or_imp, forall_and, groupChars, laneChar_eq_fwdLUT] using hmem

/-- R105: only the padding at the end of an encoding is a `=`. -/
theorem count_padCode_encodeAll (a : Alphabet) (b : List Byte) : (encodeAll a b).count padCode = padCount b.length := by
  obtain ⟨chars, heq, hmem⟩ := encodeAll_eq_chars_append_pad a b
  have hnone : padCode ∉ chars := fun h => by
    obtain ⟨v, hv⟩ := hmem _ h
    exact fwdLUT_ne_padCode a v hv.symm
  rw [heq, List.count_append, List.count_eq_zero.2 hnone, List.count_replicate_self, Nat.zero_add]

/-- Settles O52: `length_encodeAll`, and the characters before the padding. -/
theorem lengthAndPaddingOfAnEncoding : Obligations.LengthAndPaddingOfAnEncoding := fun a b =>
  ⟨length_encodeAll a b, by simp [encodeAll], count_padCode_encodeAll a b, encodeAll_eq_chars_append_pad a b⟩

/-- R110: the URL_SAFE symbol for a STANDARD one. -/
def urlSafeOf (u : Byte) : Byte := if u = 0x2B#8 then 0x2D#8 else if u = 0x2F#8 then 0x5F#8 else u

theorem urlSafeOf_padCode : urlSafeOf padCode = padCode := by decide

/-- R32, R110, of one symbol. -/
theorem fwdLUT_urlSafe : ∀ v : Sextet, fwdLUT .urlSafe v = urlSafeOf (fwdLUT .standard v) := by decide

theorem laneChar_urlSafe (w : Word24) (j : Fin 4) : laneChar .urlSafe w j = urlSafeOf (laneChar .standard w j) :=
  fwdLUT_urlSafe (lane w j)

theorem encodeAll_urlSafe (b : List Byte) : encodeAll .urlSafe b = (encodeAll .standard b).map urlSafeOf := by
  induction b using encodeAll.induct with
  | case1 => simp [encodeAll]
  | case2 b0 => simp [encodeAll, tailChars1, laneChar_urlSafe, urlSafeOf_padCode]
  | case3 b0 b1 => simp [encodeAll, tailChars2, laneChar_urlSafe, urlSafeOf_padCode]
  | case4 b0 b1 b2 rest ih => simp [encodeAll, groupChars, laneChar_urlSafe, ih]

/-- Settles O53, group by group. -/
theorem alphabetsDifferOnlyIn62And63 : Obligations.AlphabetsDifferOnlyIn62And63 := encodeAll_urlSafe

/-! ### The operation -/

/-- R80: the port events of an operation after its CMD. -/
def inputEvents (us : List Byte) : List PortEvent :=
  us.map (fun u => .word (encode (.data u))) ++ [.word (encode .endInput)]

theorem operationEvents_eq (cmd : Instr) (us : List Byte) :
    operationEvents cmd us = .word (encode cmd) :: inputEvents us := by
  simp [operationEvents, inputEvents]

@[simp] theorem inputEvents_nil : inputEvents [] = [.word (encode .endInput)] := rfl

@[simp] theorem inputEvents_cons (u : Byte) (us : List Byte) :
    inputEvents (u :: us) = .word (encode (.data u)) :: inputEvents us := rfl

/-- R59, R76: one more transaction of a run. -/
theorem runSteps_word {s t : State} {i : Instr} {rest : List PortEvent} (hpend : s.pending = .word (encode i) :: rest)
    (h : exec i s.consume = .next t) (n : Nat) : runSteps (n + 1) s = runSteps n t :=
  runSteps_one ((step_word hpend (decode_encode i)).trans h)

/-- The drain phase: the input's DATAs change nothing, and its END closes the operation (R94, R95). -/
theorem runSteps_drain {s : State} {us : List Byte} {rest : List PortEvent} (hp : s.phase = .drain)
    (hpend : s.pending = inputEvents us ++ rest) :
    runSteps (us.length + 1) s = .next { s with pending := rest, phase := .done } := by
  induction us generalizing s with
  | nil =>
    rw [inputEvents_nil] at hpend
    rw [List.length_nil, runSteps_word hpend (exec_end_drain (s := s.consume) hp), consume_eq hpend]
    rfl
  | cons u us ih =>
    rw [inputEvents_cons] at hpend
    rw [List.length_cons, runSteps_word hpend (exec_data_drain (s := s.consume) hp u)]
    exact ih (s := s.consume) hp (congrArg List.tail hpend)

/-- R107: what the DATAs of `b` and END leave behind from `s`: `Encode(b, a)` appended where it fits, and otherwise
AllocationFailure and the whole groups that fit. -/
structure EncodeEnds (a : Alphabet) (b : List Byte) (s t : State) : Prop where
  phase : t.phase = .done
  answers : t.answers = s.answers
  fits : s.room (encodeAll a b).length →
    t.err = .none ∧ t.out = s.out ++ encodeAll a b ∧ t.inCnt = s.inCnt + BitVec.ofNat 32 b.length
  overflows : ∀ c, s.outCap = some c → c.val < s.out.length + (encodeAll a b).length →
    t.err = .allocationFailure ∧ t.out = s.out ++ (encodeAll a b).take (4 * ((c.val - s.out.length) / 4))

theorem room_mono {s : State} {m n : Nat} (h : s.room n) (hmn : m ≤ n) : s.room m :=
  fun c hc => (Nat.add_le_add_left hmn _).trans (h c hc)

theorem not_room_of_lt {s : State} {n : Nat} {c : Fin 4294967296} (hcap : s.outCap = some c)
    (hlt : c.val < s.out.length + n) : ¬ s.room n :=
  fun h => Nat.not_le.2 hlt (h c hcap)

/-- The end of an operation whose units all fit. -/
theorem encodeEnds_of_room {a : Alphabet} {b : List Byte} {s t : State} (hroom : s.room (encodeAll a b).length)
    (hphase : t.phase = .done) (hans : t.answers = s.answers) (herr : t.err = .none)
    (hout : t.out = s.out ++ encodeAll a b) (hcnt : t.inCnt = s.inCnt + BitVec.ofNat 32 b.length) :
    EncodeEnds a b s t :=
  ⟨hphase, hans, fun _ => ⟨herr, hout, hcnt⟩, fun _ hcap hlt => absurd hroom (not_room_of_lt hcap hlt)⟩

/-- The end of an operation whose next group does not fit. -/
theorem encodeEnds_of_full {a : Alphabet} {b : List Byte} {s t : State} (hfull : ¬ s.room 4)
    (hlen : 4 ≤ (encodeAll a b).length) (hphase : t.phase = .done) (hans : t.answers = s.answers)
    (herr : t.err = .allocationFailure) (hout : t.out = s.out) : EncodeEnds a b s t := by
  refine ⟨hphase, hans, fun hroom => absurd (room_mono hroom hlen) hfull, fun c hcap _ => ⟨herr, ?_⟩⟩
  have hlt : c.val < s.out.length + 4 := by
    by_contra hle
    exact hfull fun c' hc' => by cases hcap.symm.trans hc'; omega
  rw [Nat.div_eq_of_lt (by omega), Nat.mul_zero, List.take_zero, List.append_nil, hout]

/-- A whole group that fits, and the operation that goes on behind it. -/
theorem encodeEnds_of_group {a : Alphabet} {b0 b1 b2 : Byte} {b : List Byte} {s m t : State} (hroom : s.room 4)
    (hcap : m.outCap = s.outCap) (hans : m.answers = s.answers)
    (hout : m.out = s.out ++ groupChars a (pack b0 b1 b2)) (hcnt : m.inCnt = s.inCnt + 3#32)
    (h : EncodeEnds a b m t) : EncodeEnds a (b0 :: b1 :: b2 :: b) s t := by
  have hlen : (encodeAll a (b0 :: b1 :: b2 :: b)).length = 4 + (encodeAll a b).length := by
    rw [encodeAll, List.length_append]
    rfl
  have hmlen : m.out.length = s.out.length + 4 := by
    rw [hout, List.length_append]
    rfl
  refine ⟨h.phase, h.answers.trans hans, fun hall => ?_, fun c hc hlt => ?_⟩
  · have hrest : m.room (encodeAll a b).length := fun c hc => by
      have := hall c (hcap ▸ hc)
      omega
    obtain ⟨herr, hout', hcnt'⟩ := h.fits hrest
    refine ⟨herr, ?_, ?_⟩
    · rw [hout', hout, encodeAll, List.append_assoc]
    · rw [hcnt', hcnt, BitVec.add_assoc, ← BitVec.ofNat_add, Nat.add_comm 3]
      rfl
  · obtain ⟨herr, hout'⟩ := h.overflows c (hcap.trans hc) (by omega)
    refine ⟨herr, ?_⟩
    have hfit : s.out.length + 4 ≤ c.val := hroom c hc
    have htake : 4 * ((c.val - s.out.length) / 4) =
        (groupChars a (pack b0 b1 b2)).length + 4 * ((c.val - m.out.length) / 4) := by
      rw [hmlen]
      change _ = 4 + _
      omega
    rw [encodeAll, htake, List.take_length_add_append, ← List.append_assoc, ← hout, hout']

/-- `m` is an encode under alphabet `a` that goes on: past `s` it has taken up `k` bytes of a group, which stands in EG
as `w` (R103). `Holding a s s 0 0#24` says that `s` stands between two groups. -/
structure Holding (a : Alphabet) (s m : State) (k : Fin 3) (w : Word24) : Prop where
  phase : m.phase = .run
  err : m.err = .none
  op : cfgOp m.cfg = .encode
  alph : cfgAlph m.cfg = a
  ec : m.ec = k
  eg : m.eg = w
  room : m.room 0
  out : m.out = s.out
  outCap : m.outCap = s.outCap
  answers : m.answers = s.answers
  inCnt : m.inCnt = s.inCnt + BitVec.ofNat 32 k.val

theorem Holding.room_iff {a : Alphabet} {s m : State} {k : Fin 3} {w : Word24} (h : Holding a s m k w) (n : Nat) :
    m.room n ↔ s.room n := by
  rw [State.room, State.room, h.out, h.outCap]

/-- R90: an accepted CMD.ENCODE stands before the first group. -/
theorem holding_startOperation (s : State) (a : Alphabet) (st : Bool) :
    Holding a (s.startOperation (cfgValue .encode a st)) (s.startOperation (cfgValue .encode a st)) 0 0#24 := by
  refine ⟨rfl, rfl, ?_, ?_, rfl, rfl, fun c _ => Nat.zero_le _, rfl, rfl, rfl, (BitVec.add_zero _).symm⟩
  · rw [State.startOperation_cfg]
    cases a <;> cases st <;> rfl
  · rw [State.startOperation_cfg]
    cases a <;> cases st <;> rfl

/-- From `m` the run ends in `n` steps, `rest` is left at the port, and past `s` it was an encode of `b`. -/
def EndsIn (n : Nat) (a : Alphabet) (b : List Byte) (rest : List PortEvent) (s m : State) : Prop :=
  ∃ t, runSteps n m = .next t ∧ t.pending = rest ∧ EncodeEnds a b s t

section Groups

variable {a : Alphabet} {s m : State} {k : Fin 3} {w : Word24} {rest : List PortEvent}

/-- A unit that the group holds. -/
theorem runSteps_hold (h : Holding a s m k w) {u : Byte} {k' : Fin 3} {w' : Word24}
    (hexec : exec (.data u) m.consume = .next (m.consume.countUnit.setGroup w' k')) (hk : k'.val = k.val + 1)
    (hpend : m.pending = .word (encode (.data u)) :: rest) :
    ∃ m', (∀ n, runSteps (n + 1) m = runSteps n m') ∧ Holding a s m' k' w' ∧ m'.pending = rest := by
  refine ⟨_, runSteps_word hpend hexec,
    ⟨h.phase, h.err, h.op, h.alph, rfl, rfl, h.room, h.out, h.outCap, h.answers, ?_⟩, congrArg List.tail hpend⟩
  rw [State.setGroup_inCnt, State.countUnit_inCnt, State.consume_inCnt, h.inCnt, hk, BitVec.ofNat_add, BitVec.add_assoc]

/-- The first byte of a group at the port. -/
theorem runSteps_first (h : Holding a s m 0 w) {b0 : Byte} (hpend : m.pending = .word (encode (.data b0)) :: rest) :
    ∃ m', (∀ n, runSteps (n + 1) m = runSteps n m') ∧ Holding a s m' 1 (pack b0 0#8 0#8) ∧ m'.pending = rest :=
  runSteps_hold h (exec_data_first (s := m.consume) h.phase h.op h.ec b0) rfl hpend

/-- The second byte. -/
theorem runSteps_second {b0 b1 : Byte} (h : Holding a s m 1 (pack b0 0#8 0#8))
    (hpend : m.pending = .word (encode (.data b1)) :: rest) :
    ∃ m', (∀ n, runSteps (n + 1) m = runSteps n m') ∧ Holding a s m' 2 (pack b0 b1 0#8) ∧ m'.pending = rest := by
  refine runSteps_hold h ?_ rfl hpend
  rw [exec_data_second (s := m.consume) h.phase h.op h.ec b1, State.consume_eg, h.eg, (bytes_pack b0 0#8 0#8).1]

/-- The third byte, where the group fits: the run stands before the next group. -/
theorem runSteps_third {b0 b1 b2 : Byte} (h : Holding a s m 2 (pack b0 b1 0#8)) (hroom : s.room 4)
    (hpend : m.pending = .word (encode (.data b2)) :: rest) :
    ∃ m', (∀ n, runSteps (n + 1) m = runSteps n m') ∧ Holding a m' m' 0 0#24 ∧ m'.pending = rest ∧
      m'.outCap = s.outCap ∧ m'.answers = s.answers ∧ m'.out = s.out ++ groupChars a (pack b0 b1 b2) ∧
      m'.inCnt = s.inCnt + 3#32 := by
  have hroom' : m.room 4 := (h.room_iff 4).2 hroom
  have hexec := exec_data_third (s := m.consume) h.phase h.op h.ec hroom' b2
  obtain ⟨hhigh, hmid, _⟩ := bytes_pack b0 b1 0#8
  rw [State.consume_eg, State.consume_cfg, h.eg, h.alph, hhigh, hmid] at hexec
  refine ⟨_, runSteps_word hpend hexec, ⟨h.phase, h.err, h.op, h.alph, rfl, rfl, fun c hc => ?_, rfl, rfl, rfl,
    (BitVec.add_zero _).symm⟩, congrArg List.tail hpend, h.outCap, h.answers, ?_, ?_⟩
  · rw [State.setGroup_out, State.appendOut_out, List.length_append]
    exact hroom' c hc
  · rw [State.setGroup_out, State.appendOut_out, State.countUnit_out, State.consume_out, h.out]
  · rw [State.setGroup_inCnt, State.appendOut_inCnt, State.countUnit_inCnt, State.consume_inCnt, h.inCnt,
      BitVec.add_assoc]
    rfl

/-- The third byte, where the group does not fit: the block drains the units that are left. -/
theorem endsIn_of_fullGroup {b0 b1 b2 : Byte} {b : List Byte} (h : Holding a s m 2 w) (hroom : ¬ s.room 4)
    (hpend : m.pending = .word (encode (.data b2)) :: (inputEvents b ++ rest)) :
    EndsIn (b.length + 2) a (b0 :: b1 :: b2 :: b) rest s m := by
  have hexec := exec_data_third_full (s := m.consume) h.phase h.op h.ec (mt (h.room_iff 4).1 hroom) b2
  refine ⟨_, (runSteps_word hpend hexec _).trans (runSteps_drain rfl (congrArg List.tail hpend)), rfl,
    encodeEnds_of_full hroom ?_ rfl h.answers rfl h.out⟩
  rw [length_encodeAll, List.length_cons, List.length_cons, List.length_cons]
  omega

/-- END with a partial group, the bytes `b`, whose tail is `Encode(b, a)` (R104). -/
theorem endsIn_of_tail {b : List Byte} (h : Holding a s m k w) (hk : k ≠ 0) (hkb : k.val = b.length)
    (htail : m.room 4 → exec .endInput m.consume = .next
      (((m.consume.appendOut (encodeAll a b)).setGroup 0#24 0).setPhase .done))
    (hpend : m.pending = .word (encode .endInput) :: rest) : EndsIn 1 a b rest s m := by
  have hlen : (encodeAll a b).length = 4 := by
    rw [length_encodeAll]
    have hpos : 0 < k.val := Fin.pos_iff_ne_zero.2 hk
    omega
  by_cases hroom : m.room 4
  · refine ⟨_, runSteps_word hpend (htail hroom) 0, congrArg List.tail hpend,
      encodeEnds_of_room ?_ rfl h.answers h.err (congrArg (· ++ encodeAll a b) h.out) (hkb ▸ h.inCnt)⟩
    rw [hlen]
    exact (h.room_iff 4).1 hroom
  · have hexec := exec_end_full (s := m.consume) h.phase h.op (h.ec ▸ hk) hroom
    exact ⟨_, runSteps_word hpend hexec 0, congrArg List.tail hpend,
      encodeEnds_of_full (mt (h.room_iff 4).2 hroom) hlen.ge rfl h.answers rfl h.out⟩

end Groups

/-- R107, from between two groups: the recursion of `Encode` is the recursion of the run. -/
theorem endsIn_encode {a : Alphabet} {s : State} {b : List Byte} {rest : List PortEvent} (h : Holding a s s 0 0#24)
    (hpend : s.pending = inputEvents b ++ rest) : EndsIn (b.length + 1) a b rest s s := by
  induction b using encodeAll.induct generalizing s with
  | case1 =>
    have hexec := exec_end_zero (s := s.consume) h.phase h.op h.ec
    refine ⟨_, runSteps_word hpend hexec 0, congrArg List.tail hpend, encodeEnds_of_room ?_ rfl rfl h.err ?_ h.inCnt⟩
    · rw [encodeAll]
      exact h.room
    · rw [encodeAll, List.append_nil]
      rfl
  | case2 b0 =>
    obtain ⟨m, hrun, hm, hpend⟩ := runSteps_first h hpend
    have hends : EndsIn 1 a [b0] rest s m := by
      refine endsIn_of_tail hm (by decide) rfl (fun hroom => ?_) hpend
      rw [exec_end_one (s := m.consume) hm.phase hm.op hm.ec hroom, State.consume_cfg, State.consume_eg, hm.alph, hm.eg,
        encodeAll]
    rwa [EndsIn, List.length_singleton, hrun]
  | case3 b0 b1 =>
    obtain ⟨m₁, hrun₁, hm₁, hpend₁⟩ := runSteps_first h hpend
    obtain ⟨m, hrun, hm, hpend⟩ := runSteps_second hm₁ hpend₁
    have hends : EndsIn 1 a [b0, b1] rest s m := by
      refine endsIn_of_tail hm (by decide) rfl (fun hroom => ?_) hpend
      rw [exec_end_two (s := m.consume) hm.phase hm.op hm.ec hroom, State.consume_cfg, State.consume_eg, hm.alph, hm.eg,
        encodeAll]
    rwa [EndsIn, List.length_cons, List.length_singleton, hrun₁, hrun]
  | case4 b0 b1 b2 b ih =>
    obtain ⟨m₁, hrun₁, hm₁, hpend₁⟩ := runSteps_first h hpend
    obtain ⟨m, hrun, hm, hpend⟩ := runSteps_second hm₁ hpend₁
    have hends : EndsIn (b.length + 2) a (b0 :: b1 :: b2 :: b) rest s m := by
      by_cases hroom : s.room 4
      · obtain ⟨m', hrun', hm', hpend', hcap, hans, hout, hcnt⟩ := runSteps_third hm hroom hpend
        obtain ⟨t, ht, hrest, hend⟩ := ih hm' hpend'
        exact ⟨t, (hrun' _).trans ht, hrest, encodeEnds_of_group hroom hcap hans hout hcnt hend⟩
      · exact endsIn_of_fullGroup hm hroom hpend
    rwa [EndsIn, List.length_cons, List.length_cons, List.length_cons, hrun₁, hrun]

/-- R24: STATUS and the result when an operation has ended well. -/
theorem status_result_of_done {t : State} (hp : t.phase = .done) (he : t.err = .none) :
    t.status = 0x06#8 ∧ t.result = .ok t.out := by
  rw [status_eq_statusByte, State.result, hp, he]
  exact ⟨rfl, rfl⟩

/-- Settles O49: CMD, and then `endsIn_encode` from an empty OUT. -/
theorem encodeOperationIsEncode : Obligations.EncodeOperationIsEncode := by
  intro s a st b rest hp hpend
  rw [operationEvents_eq] at hpend
  have hcmd := (exec_cmdEncode_next_iff (s := s.consume) a st).2 ⟨hp, rfl⟩
  obtain ⟨t, ht, hrest, hends⟩ := endsIn_encode (rest := rest) (b := b)
    (holding_startOperation s.consume a st) (congrArg List.tail hpend)
  refine ⟨t, (runSteps_word hpend hcmd _).trans ht, hends.phase, hrest, hends.answers, fun hfit => ?_, fun c hc hlt => ?_⟩
  · obtain ⟨herr, hout, hcnt⟩ := hends.fits fun c hc => by
      rw [length_encodeAll, State.startOperation_out, List.length_nil, Nat.zero_add]
      exact hfit c hc
    rw [State.startOperation_out, List.nil_append] at hout
    obtain ⟨hstatus, hresult⟩ := status_result_of_done hends.phase herr
    rw [hout] at hresult
    refine ⟨hstatus, hresult, hout, ?_, ?_⟩
    · rw [State.outCnt, hout, length_encodeAll]
    · rw [hcnt, State.startOperation_inCnt, BitVec.zero_add]
  · obtain ⟨herr, hout⟩ := hends.overflows c hc (by
      rwa [length_encodeAll, State.startOperation_out, List.length_nil, Nat.zero_add])
    rw [State.startOperation_out, List.nil_append, List.length_nil, Nat.sub_zero] at hout
    refine ⟨?_, herr, hout, outValid_of_error (herr ▸ nofun)⟩
    rw [status_eq_statusByte, hends.phase, herr]
    rfl

end Sys2Proof.Machine

/-! The decoder (42_decoder.md R120 to R134): the classes of a unit and the fields of a quantum, DATA and END of a
decode for every DK, the function `Decode` and its laws, and the operation that computes it. -/

namespace Sys2Proof.Machine

/-! ### Units and the fields of a quantum -/

/-- R32: every symbol is a printable character. -/
theorem fwdLUT_printable (a : Alphabet) : ∀ v : Sextet, 0x20#8 < fwdLUT a v ∧ fwdLUT a v < 0x7F#8 := by
  cases a <;> decide

/-- R121: a code that is no printable character is outside the alphabet, and it is not `=`. -/
theorem classify_of_not_printable (a : Alphabet) {u : Byte} (hu : 0x7F#8 ≤ u ∨ u ≤ 0x20#8) : classify a u = .other := by
  rw [classify_eq_other_iff, Option.eq_none_iff_forall_ne_some]
  refine ⟨fun v hv => ?_, fun hpad => ?_⟩
  · obtain ⟨hlow, hhigh⟩ := fwdLUT_printable a v
    rw [fwdLUT_of_revLUT a u v hv] at hlow hhigh
    bv_omega
  · subst hpad
    exact absurd hu (by decide)

/-- Settles O25: the class of a unit by the laws of the tables, the four symbols of the other alphabet evaluated. -/
theorem unitClasses : Obligations.UnitClasses :=
  ⟨classify_eq_data_iff, classify_eq_pad_iff, classify_eq_other_iff, fun a _ => classify_of_not_printable a,
    rfl, rfl, rfl, rfl⟩

/-- R123: the quantum of four sextets, put in place one after another. -/
def quantumOf (s0 s1 s2 s3 : Sextet) : Word24 :=
  insertSextet (insertSextet (insertSextet (insertSextet 0#24 0 s0) 1 s1) 2 s2) 3 s3

/-- R53, R123: the first sextet is the most significant. -/
theorem quantumOf_eq_append (s0 s1 s2 s3 : Sextet) : quantumOf s0 s1 s2 s3 = s0 ++ s1 ++ s2 ++ s3 := by
  apply BitVec.eq_of_getLsbD_eq
  intro i hi
  simp only [quantumOf, insertSextet_getLsbD, BitVec.getLsbD_append]
  interval_cases i <;> simp

/-- R123: the sextet places. -/
theorem quantumOf_sextets (s0 s1 s2 s3 : Sextet) :
    (quantumOf s0 s1 s2 s3).extractLsb' 18 6 = s0 ∧ (quantumOf s0 s1 s2 s3).extractLsb' 12 6 = s1 ∧
    (quantumOf s0 s1 s2 s3).extractLsb' 6 6 = s2 ∧ (quantumOf s0 s1 s2 s3).extractLsb' 0 6 = s3 := by
  rw [quantumOf_eq_append]
  refine ⟨?_, ?_, ?_, ?_⟩ <;> apply BitVec.eq_of_getLsbD_eq <;> intro i hi <;>
    simp only [BitVec.getLsbD_append, BitVec.getLsbD_extractLsb'] <;> interval_cases i <;> simp

/-- R53: the three bytes of a quantum. -/
theorem quantumOf_bytes (s0 s1 s2 s3 : Sextet) :
    byteHigh (quantumOf s0 s1 s2 s3) = s0 ++ s1.extractLsb' 4 2 ∧
    byteMid (quantumOf s0 s1 s2 s3) = s1.extractLsb' 0 4 ++ s2.extractLsb' 2 4 ∧
    byteLow (quantumOf s0 s1 s2 s3) = s2.extractLsb' 0 2 ++ s3 := by
  rw [quantumOf_eq_append]
  refine ⟨?_, ?_, ?_⟩ <;> apply BitVec.eq_of_getLsbD_eq <;> intro i hi <;>
    simp only [byteHigh, byteMid, byteLow, BitVec.getLsbD_append, BitVec.getLsbD_extractLsb'] <;>
    interval_cases i <;> simp

/-- Settles O26: the places and the bytes of `quantumOf`. -/
theorem reassemblerFields : Obligations.ReassemblerFields := by
  refine ⟨fun _ _ _ => rfl, fun s0 s1 s2 s3 q hq => ?_⟩
  obtain rfl : q = quantumOf s0 s1 s2 s3 := hq
  obtain ⟨h0, h1, h2, h3⟩ := quantumOf_sextets s0 s1 s2 s3
  exact ⟨h0, h1, h2, h3, quantumOf_bytes s0 s1 s2 s3⟩

/-! ### DATA and END of a decode, for every DK -/

theorem State.appendOut_nil (s : State) : s.appendOut [] = s := by
  rw [State.appendOut, List.append_nil]

/-- R124: an emission ends the quantum it came from. -/
def emitQuantum (us : List Byte) (s : State) : Except ErrCode State := (emit us s).map (·.setQuantum 0#24 0)

theorem emitQuantum_of_room {us : List Byte} {s : State} (h : s.room us.length) :
    emitQuantum us s = .ok ((s.appendOut us).setQuantum 0#24 0) := by
  rw [emitQuantum, emit_of_room h]
  rfl

theorem emitQuantum_of_not_room {us : List Byte} {s : State} (h : ¬ s.room us.length) :
    emitQuantum us s = .error .allocationFailure := by
  rw [emitQuantum, emit_of_not_room h]
  rfl

section Terminate

variable {s : State}

/-- R124, DK = 0. -/
theorem terminate_zero (hk : s.dk = 0) : terminate s = .ok s := by
  rw [terminate, hk]

/-- R124, DK = 1. -/
theorem terminate_one (hk : s.dk = 1) : terminate s = .error .truncatedInput := by
  rw [terminate, hk]

/-- R124, DK = 2. -/
theorem terminate_two (hk : s.dk = 2) : terminate s = emitQuantum [byteHigh s.dq] s := by
  rw [terminate, hk]
  rfl

/-- R124, DK = 3. -/
theorem terminate_three (hk : s.dk = 3) : terminate s = emitQuantum [byteHigh s.dq, byteMid s.dq] s := by
  rw [terminate, hk]
  rfl

end Terminate

/-- R125: a data character that leaves room in the quantum. -/
theorem acceptSextet_of_ne {s : State} (hk : s.dk ≠ 3) (v : Sextet) :
    acceptSextet v s = .ok (s.setQuantum (insertSextet s.dq s.dk v) (s.dk + 1)) :=
  if_neg hk

/-- R125: the fourth data character. -/
theorem acceptSextet_three {s : State} (hk : s.dk = 3) (v : Sextet) :
    acceptSextet v s = emitQuantum (quantumBytes (insertSextet s.dq 3 v)) s := by
  rw [← hk]
  exact if_pos hk

/-- R123: the fourth sextet goes to the lowest place. -/
theorem insertSextet_three (q : Word24) (v : Sextet) : insertSextet q 3 v = q ||| v.setWidth 24 := by
  rw [insertSextet]
  exact congrArg (q ||| ·) (BitVec.shiftLeft_zero _)

theorem decData_of_data {s : State} {u : Byte} {v : Sextet} (hv : revLUT (cfgAlph s.cfg) u = some v) :
    decData u s = acceptSextet v s := by
  rw [decData, (classify_eq_data_iff _ _ _).2 hv]

section DecodeInRun

variable {s : State} (hp : s.phase = .run) (hop : cfgOp s.cfg = .decode)

include hp hop

theorem exec_data_decode (u : Byte) :
    exec (.data u) s = .next (settle .data s.countUnit (decData u s.countUnit)) := by
  rw [exec_data_run hp, datapathData, State.countUnit_cfg, hop]

theorem exec_end_decode : exec .endInput s = .next ((settle .endInput s (terminate s)).setPhase .done) := by
  rw [exec_end_run hp, datapathEnd, hop]
  rfl

end DecodeInRun

/-- Settles O27: the two lemmas of `acceptSextet`, and the emission that fits and the one that does not. -/
theorem dataCharacterOfADecode : Obligations.DataCharacterOfADecode := by
  intro s u v hp hop hv
  have hdata : decData u s.countUnit = acceptSextet v s.countUnit := decData_of_data (s := s.countUnit) hv
  rw [exec_data_decode hp hop, hdata]
  refine ⟨fun k hk hne => ?_, fun hk hroom q hq => ?_, fun hk hroom => ?_⟩
  · subst hk
    rw [acceptSextet_of_ne (s := s.countUnit) hne]
    rfl
  · rw [acceptSextet_three (s := s.countUnit) hk, emitQuantum_of_room (by exact hroom), insertSextet_three,
      State.countUnit_dq, ← hq]
    rfl
  · rw [acceptSextet_three (s := s.countUnit) hk, emitQuantum_of_not_room (by exact hroom)]
    rfl

/-- R124: what `Terminate()` leaves for every DK, under DATA and under END. -/
theorem settle_terminate (r : Raiser) (s : State) :
    (s.dk = 0 → settle r s (terminate s) = s) ∧
    (s.dk = 1 → settle r s (terminate s) = s.raiseErr r .truncatedInput) ∧
    (s.dk = 2 → s.room 1 → settle r s (terminate s) = (s.appendOut [byteHigh s.dq]).setQuantum 0#24 0) ∧
    (s.dk = 3 → s.room 2 →
      settle r s (terminate s) = (s.appendOut [byteHigh s.dq, byteMid s.dq]).setQuantum 0#24 0) ∧
    (s.dk = 2 → ¬ s.room 1 → settle r s (terminate s) = s.raiseErr r .allocationFailure) ∧
    (s.dk = 3 → ¬ s.room 2 → settle r s (terminate s) = s.raiseErr r .allocationFailure) := by
  refine ⟨fun hk => ?_, fun hk => ?_, fun hk hroom => ?_, fun hk hroom => ?_, fun hk hroom => ?_, fun hk hroom => ?_⟩
  · rw [terminate_zero hk, settle_ok]
  · rw [terminate_one hk, settle_error]
  · rw [terminate_two hk, emitQuantum_of_room (by exact hroom), settle_ok]
  · rw [terminate_three hk, emitQuantum_of_room (by exact hroom), settle_ok]
  · rw [terminate_two hk, emitQuantum_of_not_room (by exact hroom), settle_error]
  · rw [terminate_three hk, emitQuantum_of_not_room (by exact hroom), settle_error]

/-- Settles O28: a stop unit goes to `Terminate()`. -/
theorem stopUnitOfADecode : Obligations.StopUnitOfADecode := by
  intro s u hp hop hstop
  have hterm : decData u s.countUnit = terminate s.countUnit := decData_of_stop (s := s.countUnit) hstop
  rw [exec_data_decode hp hop, hterm]
  obtain ⟨hzero, hone, htwo, hthree, htwoFull, hthreeFull⟩ := settle_terminate .data s.countUnit
  exact ⟨fun hk => congrArg _ (hzero hk), fun hk => congrArg _ (hone hk), fun hk hroom => congrArg _ (htwo hk hroom),
    fun hk hroom => congrArg _ (hthree hk hroom), fun hk hroom => congrArg _ (htwoFull hk hroom),
    fun hk hroom => congrArg _ (hthreeFull hk hroom)⟩

/-- Settles O30: END goes to `Terminate()` too, and PHASE ends at DONE whatever it answers. -/
theorem endOfADecode : Obligations.EndOfADecode := by
  intro s hp hop
  rw [exec_end_decode hp hop]
  have hdone {t t' : State} (h : t = t') : Host.Outcome.next (φ := Fault) (ρ := Refusal) (t.setPhase .done) =
      .next (t'.setPhase .done) := by rw [h]
  obtain ⟨hzero, hone, htwo, hthree, htwoFull, hthreeFull⟩ := settle_terminate .endInput s
  exact ⟨fun hk => hdone (hzero hk), fun hk => hdone (hone hk), fun hk hroom => hdone (htwo hk hroom),
    fun hk hroom => hdone (hthree hk hroom), fun hk hroom => hdone (htwoFull hk hroom),
    fun hk hroom => hdone (hthreeFull hk hroom)⟩

/-! ### The function `Decode`, unit by unit -/

section DecodeAll

variable {a : Alphabet} {st : Bool} {t : List Byte}

/-- R129: when `Decode` returns `Ok`. -/
theorem decodeAll_eq_ok_iff (bytes : List Byte) :
    decodeAll a st t = .ok bytes ↔ (decodeRun a st t).err = .none ∧ (decodeRun a st t).out = bytes := by
  unfold decodeAll
  cases (decodeRun a st t).err <;> simp

/-- R129: when `Decode` returns `Error`. -/
theorem decodeAll_eq_error_iff (e : ErrCode) :
    decodeAll a st t = .error e ↔ (decodeRun a st t).err = e ∧ e ≠ .none := by
  unfold decodeAll
  cases (decodeRun a st t).err <;> simp +contextual [eq_comm]

theorem decodeAll_of_run {out : List Byte} {n : Nat} (h : decodeRun a st t = ⟨.none, out, n⟩) :
    decodeAll a st t = .ok out :=
  (decodeAll_eq_ok_iff out).2 (by simp [h])

end DecodeAll

section DecodeLoopByClass

variable {a : Alphabet} {st : Bool} {k : Fin 4} {q : Word24} {out : List Byte} {n : Nat} {u : Byte} {us : List Byte}

/-- R129, class DATA(v). -/
theorem decodeLoop_of_data {v : Sextet} (hc : classify a u = .data v) :
    decodeLoop a st k q out n (u :: us) =
      if k = 3 then decodeLoop a st 0 0#24 (out ++ quantumBytes (insertSextet q k v)) (n + 1) us
      else decodeLoop a st (k + 1) (insertSextet q k v) out (n + 1) us := by
  obtain rfl : fwdLUT a v = u := fwdLUT_of_revLUT a u v ((classify_eq_data_iff a u v).1 hc)
  exact decodeLoop_fwdLUT a st k q out n v us

/-- R129, a unit that strict mode does not accept. -/
theorem decodeLoop_of_invalid (hc : classify a u = .other) (hst : st = true) :
    decodeLoop a st k q out n (u :: us) = ⟨.invalidCharacter, out, n + 1⟩ := by
  simp [decodeLoop, hc, hst]

/-- R129, a stop unit after whole bytes. -/
theorem decodeLoop_of_stop (hc : classify a u = .pad ∨ (classify a u = .other ∧ st = false)) {bs : List Byte}
    (hk : stopBytes k q = some bs) :
    decodeLoop a st k q out n (u :: us) = decodeLoop a st 0 0#24 (out ++ bs) (n + 1) us := by
  rcases hc with hc | ⟨hc, hst⟩
  · simp [decodeLoop, hc, hk]
  · simp [decodeLoop, hc, hst, hk]

/-- R129, a stop unit after one character. -/
theorem decodeLoop_of_stop_one (hc : classify a u = .pad ∨ (classify a u = .other ∧ st = false)) :
    decodeLoop a st 1 q out n (u :: us) = ⟨.truncatedInput, out, n + 1⟩ := by
  rcases hc with hc | ⟨hc, hst⟩
  · simp [decodeLoop, hc, stopBytes]
  · simp [decodeLoop, hc, hst, stopBytes]

end DecodeLoopByClass

/-- R129: the end of the input. -/
theorem decodeLoop_nil {a : Alphabet} {st : Bool} {k : Fin 4} {q : Word24} {us : List Byte}
    (h : stopBytes k q = some us) (out : List Byte) (n : Nat) :
    decodeLoop a st k q out n [] = ⟨.none, out ++ us, n⟩ := by
  rw [decodeLoop, h]

theorem stopBytes_of_ne_one {k : Fin 4} (hk : k ≠ 1) (q : Word24) :
    ∃ us, stopBytes k q = some us ∧ us.length = 3 * k.val / 4 := by
  match k with
  | 0 => exact ⟨_, rfl, rfl⟩
  | 1 => exact absurd rfl hk
  | 2 => exact ⟨_, rfl, rfl⟩
  | 3 => exact ⟨_, rfl, by simp⟩

/-- R131: after a stop with whole bytes, a further `=` stops an empty quantum. -/
theorem decodeLoop_pads {k : Fin 4} {q : Word24} {us : List Byte} (h : stopBytes k q = some us) (a : Alphabet)
    (st : Bool) (out : List Byte) (n p : Nat) :
    decodeLoop a st k q out n (List.replicate p padCode) = ⟨.none, out ++ us, n + p⟩ := by
  induction p generalizing k q us out n with
  | zero => exact decodeLoop_nil h out n
  | succ p ih =>
    rw [List.replicate_succ, decodeLoop_of_stop (.inl (classify_padCode a)) h, ih rfl, List.append_nil,
      Nat.add_right_comm, Nat.add_assoc]

/-- R131: a quantum of one character fails at a `=` and at the end of the input. -/
theorem decodeLoop_pads_one (a : Alphabet) (st : Bool) (q : Word24) (out : List Byte) (n p : Nat) :
    (decodeLoop a st 1 q out n (List.replicate p padCode)).err = .truncatedInput := by
  cases p with
  | zero => rfl
  | succ p =>
    rw [List.replicate_succ, decodeLoop_of_stop_one (.inl (classify_padCode a))]

/-- R125, R127: after data characters alone the loop holds `m mod 4` of them and has appended three bytes for every
four. -/
theorem decodeLoop_chars (a : Alphabet) (st : Bool) (vs : List Sextet) (k : Fin 4) (q : Word24) (out : List Byte)
    (n : Nat) :
    ∃ (k' : Fin 4) (q' : Word24) (bytes : List Byte), k'.val = (k.val + vs.length) % 4 ∧
      bytes.length = 3 * ((k.val + vs.length) / 4) ∧
      ∀ us, decodeLoop a st k q out n (vs.map (fwdLUT a) ++ us) =
        decodeLoop a st k' q' (out ++ bytes) (n + vs.length) us := by
  induction vs generalizing k q out n with
  | nil => exact ⟨k, q, [], (Nat.mod_eq_of_lt k.isLt).symm, by simp, by simp⟩
  | cons v vs ih =>
    simp only [List.map_cons, List.cons_append, decodeLoop_fwdLUT, List.length_cons]
    by_cases hk : k = 3
    · obtain ⟨k', q', bytes, hk', hlen, hrun⟩ := ih 0 0#24 (out ++ quantumBytes (insertSextet q k v)) (n + 1)
      have hk3 : k.val = 3 := congrArg Fin.val hk
      have hthree : (quantumBytes (insertSextet q k v)).length = 3 := rfl
      refine ⟨k', q', quantumBytes (insertSextet q k v) ++ bytes, ?_, ?_, fun us => ?_⟩
      · simp only [Fin.val_zero] at hk'
        omega
      · simp only [Fin.val_zero] at hlen
        rw [List.length_append]
        omega
      · rw [if_pos hk, hrun, List.append_assoc, Nat.add_right_comm, Nat.add_assoc]
    · obtain ⟨k', q', bytes, hk', hlen, hrun⟩ := ih (k + 1) (insertSextet q k v) out (n + 1)
      have hk1 : (k + 1).val = k.val + 1 := Fin.val_add_one_of_lt' (by omega)
      refine ⟨k', q', bytes, by omega, by omega, fun us => ?_⟩
      rw [if_neg hk, hrun, Nat.add_right_comm, Nat.add_assoc]

/-- R127, R131: what `m` data characters decode to, whatever number of `=` follows: the bytes of the whole quanta, and
then those of the `m mod 4` characters left over, or TruncatedInput. -/
theorem decodeAll_chars (a : Alphabet) (st : Bool) (vs : List Sextet) :
    ∃ (k : Fin 4) (q : Word24) (bytes : List Byte), k.val = vs.length % 4 ∧ bytes.length = 3 * (vs.length / 4) ∧
      ∀ pads, decodeAll a st (vs.map (fwdLUT a) ++ List.replicate pads padCode) =
        (stopBytes k q).elim (.error .truncatedInput) fun us => .ok (bytes ++ us) := by
  obtain ⟨k, q, bytes, hk, hlen, hrun⟩ := decodeLoop_chars a st vs 0 0#24 [] 0
  rw [Fin.val_zero, Nat.zero_add] at hk hlen
  refine ⟨k, q, bytes, hk, hlen, fun pads => ?_⟩
  by_cases hk1 : k = 1
  · subst hk1
    refine (decodeAll_eq_error_iff _).2 ⟨?_, nofun⟩
    rw [decodeRun, hrun, decodeLoop_pads_one]
  · obtain ⟨us, hus, _⟩ := stopBytes_of_ne_one hk1 q
    rw [hus, Option.elim_some]
    refine decodeAll_of_run (n := vs.length + pads) ?_
    rw [decodeRun, hrun, decodeLoop_pads hus, List.nil_append, Nat.zero_add]

/-- R131: `=` after data characters changes nothing. -/
theorem decodeAll_append_pads (a : Alphabet) (st : Bool) (vs : List Sextet) (pads : Nat) :
    decodeAll a st (vs.map (fwdLUT a) ++ List.replicate pads padCode) = decodeAll a st (vs.map (fwdLUT a)) := by
  obtain ⟨k, q, bytes, _, _, hrun⟩ := decodeAll_chars a st vs
  have hnone := hrun 0
  rw [List.replicate_zero, List.append_nil] at hnone
  rw [hrun pads, hnone]

/-- Settles O54: the whole quanta and the characters left over, which are not one. -/
theorem lengthOfADecode : Obligations.LengthOfADecode := by
  intro a st vs pads _ hm
  obtain ⟨k, q, bytes, hk, hlen, hrun⟩ := decodeAll_chars a st vs
  have hk1 : k ≠ 1 := fun h => hm (by rw [← hk, h]; rfl)
  obtain ⟨us, hus, hlast⟩ := stopBytes_of_ne_one hk1 q
  refine ⟨bytes ++ us, (hrun pads).trans (by rw [hus, Option.elim_some]), ?_⟩
  rw [List.length_append]
  omega

/-- Settles O55: the one character left over stops with no bytes. -/
theorem oneCharacterQuantumFails : Obligations.OneCharacterQuantumFails := by
  intro a st vs pads hm
  obtain ⟨k, q, bytes, hk, _, hrun⟩ := decodeAll_chars a st vs
  obtain rfl : k = 1 := Fin.ext (hk.trans hm)
  exact hrun pads

/-! ### Partial quanta -/

/-- R123: a sextet of zeros leaves the quantum as it is. -/
theorem insertSextet_zero (q : Word24) (k : Fin 4) : insertSextet q k 0#6 = q := by
  simp [insertSextet]

section PartialQuanta

variable (a : Alphabet) (st : Bool) (v0 v1 v2 : Sextet)

/-- R125: two data characters, held. -/
theorem decodeLoop_two (out : List Byte) (n : Nat) (us : List Byte) :
    decodeLoop a st 0 0#24 out n (fwdLUT a v0 :: fwdLUT a v1 :: us) =
      decodeLoop a st 2 (quantumOf v0 v1 0#6 0#6) out (n + 2) us := by
  rw [decodeLoop_fwdLUT, if_neg (by decide), decodeLoop_fwdLUT, if_neg (by decide), quantumOf, insertSextet_zero,
    insertSextet_zero]
  rfl

/-- R125: three data characters, held. -/
theorem decodeLoop_three (out : List Byte) (n : Nat) (us : List Byte) :
    decodeLoop a st 0 0#24 out n (fwdLUT a v0 :: fwdLUT a v1 :: fwdLUT a v2 :: us) =
      decodeLoop a st 3 (quantumOf v0 v1 v2 0#6) out (n + 3) us := by
  rw [decodeLoop_two, decodeLoop_fwdLUT, if_neg (by decide), quantumOf, insertSextet_zero, insertSextet_zero, quantumOf,
    insertSextet_zero]
  rfl

/-- R132: two data characters give one byte, `v0 ++ v1[5:4]`. -/
theorem decodeAll_two : decodeAll a st ([v0, v1].map (fwdLUT a)) = .ok [v0 ++ v1.extractLsb' 4 2] := by
  obtain ⟨hhigh, _, _⟩ := quantumOf_bytes v0 v1 0#6 0#6
  rw [← hhigh]
  exact decodeAll_of_run ((decodeLoop_two a st v0 v1 [] 0 []).trans (decodeLoop_nil rfl [] 2))

/-- R132: three data characters give two bytes, `v0 ++ v1[5:4]` and `v1[3:0] ++ v2[5:2]`. -/
theorem decodeAll_three : decodeAll a st ([v0, v1, v2].map (fwdLUT a)) =
    .ok [v0 ++ v1.extractLsb' 4 2, v1.extractLsb' 0 4 ++ v2.extractLsb' 2 4] := by
  obtain ⟨hhigh, hmid, _⟩ := quantumOf_bytes v0 v1 v2 0#6
  rw [← hhigh, ← hmid]
  exact decodeAll_of_run ((decodeLoop_three a st v0 v1 v2 [] 0 []).trans (decodeLoop_nil rfl [] 3))

end PartialQuanta

/-- Settles O56: the bytes of two and of three characters do not read the bits that the statement leaves open. -/
theorem droppedBitsAreNotChecked : Obligations.DroppedBitsAreNotChecked := by
  refine ⟨fun a st v0 v1 w1 pads h =>
      ⟨_, (decodeAll_append_pads a st [v0, v1] pads).trans (decodeAll_two a st v0 v1), ?_⟩,
    fun a st v0 v1 v2 w2 pads h =>
      ⟨_, _, (decodeAll_append_pads a st [v0, v1, v2] pads).trans (decodeAll_three a st v0 v1 v2), ?_⟩⟩
  · rw [h]
    exact (decodeAll_append_pads a st [v0, w1] pads).trans (decodeAll_two a st v0 w1)
  · rw [h]
    exact (decodeAll_append_pads a st [v0, v1, w2] pads).trans (decodeAll_three a st v0 v1 w2)

/-! ### `Decode` after `Encode` -/

/-- R105, R109: an encoding is the characters of some sextets and then its padding. -/
theorem encodeAll_eq_map_append_pad (a : Alphabet) (b : List Byte) :
    ∃ vs : List Sextet, encodeAll a b = vs.map (fwdLUT a) ++ List.replicate (padCount b.length) padCode := by
  obtain ⟨chars, heq, hmem⟩ := encodeAll_eq_chars_append_pad a b
  have hrange : chars ∈ Set.range (List.map (fwdLUT a)) := by
    rw [Set.range_list_map]
    exact fun u hu => (hmem u hu).imp fun _ => Eq.symm
  obtain ⟨vs, rfl⟩ := hrange
  exact ⟨vs, heq⟩

/-- R133: stripping the padding leaves the characters. -/
theorem stripPad_map_append_pad (a : Alphabet) (vs : List Sextet) (pads : Nat) :
    stripPad (vs.map (fwdLUT a) ++ List.replicate pads padCode) = vs.map (fwdLUT a) := by
  induction pads with
  | zero =>
    rw [List.replicate_zero, List.append_nil, stripPad, List.rdropWhile_eq_self_iff]
    intro hne
    obtain ⟨v, _, hv⟩ := List.mem_map.1 (List.getLast_mem hne)
    simpa [isPad, ← hv] using fwdLUT_ne_padCode a v
  | succ pads ih =>
    rw [List.replicate_succ', ← List.append_assoc, stripPad, List.rdropWhile_concat_pos _ _ _ (by rfl)]
    exact ih

/-- R101, R123: the lanes of a group of one byte put back. -/
theorem quantumOf_lanes_one (b0 : Byte) :
    quantumOf (lane (pack b0 0#8 0#8) 0) (lane (pack b0 0#8 0#8) 1) 0#6 0#6 = pack b0 0#8 0#8 := by
  obtain ⟨_, _, h2, h3⟩ := splitterLanes.2 b0 0#8 0#8
  have hlanes := insertSextet_lanes (pack b0 0#8 0#8)
  rwa [show lane (pack b0 0#8 0#8) 2 = 0#6 from h2, show lane (pack b0 0#8 0#8) 3 = 0#6 from h3] at hlanes

/-- R101, R123: the lanes of a group of two bytes put back. -/
theorem quantumOf_lanes_two (b0 b1 : Byte) :
    quantumOf (lane (pack b0 b1 0#8) 0) (lane (pack b0 b1 0#8) 1) (lane (pack b0 b1 0#8) 2) 0#6 = pack b0 b1 0#8 := by
  obtain ⟨_, _, _, h3⟩ := splitterLanes.2 b0 b1 0#8
  have hlanes := insertSextet_lanes (pack b0 b1 0#8)
  rwa [show lane (pack b0 b1 0#8) 3 = 0#6 from h3] at hlanes

/-- R133: an encoding decodes to what it encodes, behind the whole groups already decoded. -/
theorem decodeLoop_encodeAll (a : Alphabet) (st : Bool) (b out : List Byte) (n : Nat) :
    decodeLoop a st 0 0#24 out n (encodeAll a b) = ⟨.none, out ++ b, n + (encodeAll a b).length⟩ := by
  induction b using encodeAll.induct generalizing out n with
  | case1 =>
    rw [encodeAll]
    exact decodeLoop_nil rfl out n
  | case2 b0 =>
    obtain ⟨hhigh, _, _⟩ := bytes_pack b0 0#8 0#8
    have hstop : stopBytes 2 (pack b0 0#8 0#8) = some [b0] := congrArg (fun u => some [u]) hhigh
    rw [encodeAll, tailChars1, laneChar, laneChar, decodeLoop_two, quantumOf_lanes_one]
    exact decodeLoop_pads hstop a st out (n + 2) 2
  | case3 b0 b1 =>
    obtain ⟨hhigh, hmid, _⟩ := bytes_pack b0 b1 0#8
    have hstop : stopBytes 3 (pack b0 b1 0#8) = some [b0, b1] := by rw [stopBytes, hhigh, hmid]
    rw [encodeAll, tailChars2, laneChar, laneChar, laneChar, decodeLoop_three, quantumOf_lanes_two]
    exact decodeLoop_pads hstop a st out (n + 3) 1
  | case4 b0 b1 b2 b ih =>
    obtain ⟨hhigh, hmid, hlow⟩ := bytes_pack b0 b1 b2
    rw [encodeAll, decodeLoop_groupChars, ih, quantumBytes, hhigh, hmid, hlow, List.append_assoc, List.length_append,
      Nat.add_assoc]
    rfl

theorem decodeAll_encodeAll (a : Alphabet) (st : Bool) (b : List Byte) : decodeAll a st (encodeAll a b) = .ok b :=
  decodeAll_of_run (decodeLoop_encodeAll a st b [] 0)

/-- Settles O51: without its padding an encoding is its characters, after which `=` changes nothing. -/
theorem decodeOfEncodeIsTheInput : Obligations.DecodeOfEncodeIsTheInput := by
  refine fun a st b => ⟨decodeAll_encodeAll a st b, ?_⟩
  obtain ⟨vs, hvs⟩ := encodeAll_eq_map_append_pad a b
  rw [hvs, stripPad_map_append_pad, ← decodeAll_append_pads, ← hvs, decodeAll_encodeAll]

/-! ### The other alphabet -/

/-- R121, R134: the symbols of 62 and 63 are outside the other alphabet. -/
theorem classify_other_alphabet {a a' : Alphabet} (hne : a ≠ a') :
    classify a' (fwdLUT a 62#6) = .other ∧ classify a' (fwdLUT a 63#6) = .other := by
  match a, a', hne with
  | .standard, .standard, hne => exact absurd rfl hne
  | .standard, .urlSafe, _ => exact ⟨rfl, rfl⟩
  | .urlSafe, .standard, _ => exact ⟨rfl, rfl⟩
  | .urlSafe, .urlSafe, hne => exact absurd rfl hne

/-- R122, R134: in strict mode characters without a `=` among them, one of them outside the alphabet, stop at the first
such unit, since nothing before it can raise an error. -/
theorem decodeLoop_err_of_other (a : Alphabet) {chars : List Byte} (hpad : padCode ∉ chars) {u : Byte} (hu : u ∈ chars)
    (hother : classify a u = .other) (us : List Byte) (k : Fin 4) (q : Word24) (out : List Byte) (n : Nat) :
    (decodeLoop a true k q out n (chars ++ us)).err = .invalidCharacter := by
  induction chars generalizing k q out n with
  | nil => exact absurd hu List.not_mem_nil
  | cons c chars ih =>
    obtain ⟨hc, hchars⟩ := List.ne_and_not_mem_of_not_mem_cons hpad
    rw [List.cons_append]
    cases hclass : classify a c with
    | data v =>
      have hmem : u ∈ chars := (List.mem_cons.1 hu).resolve_left fun h => by simp [← h, hother] at hclass
      rw [decodeLoop_of_data hclass]
      split
      · exact ih hchars hmem _ _ _ _
      · exact ih hchars hmem _ _ _ _
    | pad => exact absurd ((classify_eq_pad_iff a c).1 hclass).symm hc
    | other => rw [decodeLoop_of_invalid hclass rfl]

/-- Settles O57: the symbol stands among the characters, before the padding. -/
theorem crossAlphabetInputIsInvalid : Obligations.CrossAlphabetInputIsInvalid := by
  intro a a' b hne hsym
  obtain ⟨h62, h63⟩ := classify_other_alphabet hne
  obtain ⟨u, hmem, hother, hupad⟩ : ∃ u ∈ encodeAll a b, classify a' u = .other ∧ u ≠ padCode := by
    rcases hsym with h | h
    · exact ⟨_, h, h62, fwdLUT_ne_padCode a _⟩
    · exact ⟨_, h, h63, fwdLUT_ne_padCode a _⟩
  obtain ⟨vs, hvs⟩ := encodeAll_eq_map_append_pad a b
  rw [hvs] at hmem ⊢
  have hchars : u ∈ vs.map (fwdLUT a) :=
    (List.mem_append.1 hmem).resolve_right fun h => hupad (List.eq_of_mem_replicate h)
  have hpad : padCode ∉ vs.map (fwdLUT a) := by simp [fwdLUT_ne_padCode]
  exact (decodeAll_eq_error_iff _).2 ⟨decodeLoop_err_of_other a' hpad hchars hother _ _ _ _ _, nofun⟩

/-! ### The operation -/

/-- R130: where `Decode` returns `Ok` it has read all units. -/
theorem decodeLoop_consumed {a : Alphabet} {st : Bool} {us : List Byte} {k : Fin 4} {q : Word24} {out : List Byte}
    {n : Nat} (h : (decodeLoop a st k q out n us).err = .none) :
    (decodeLoop a st k q out n us).consumed = n + us.length := by
  induction us generalizing k q out n with
  | nil =>
    rw [decodeLoop]
    split <;> rfl
  | cons u us ih =>
    generalize hr : decodeLoop a st k q out n (u :: us) = r at h ⊢
    rw [List.length_cons, Nat.add_comm us.length, ← Nat.add_assoc]
    rw [decodeLoop] at hr
    split at hr
    · split at hr <;> subst hr <;> exact ih h
    · split at hr
      · subst hr
        cases h
      · split at hr <;> subst hr
        · exact ih h
        · cases h

/-- R55: the units `us` stay within the capacity. -/
def FitsIn (cap : Capacity) (us : List Byte) : Prop := ∀ c, cap = some c → us.length ≤ c.val

theorem fitsIn_append_iff (s : State) (us : List Byte) : FitsIn s.outCap (s.out ++ us) ↔ s.room us.length := by
  simp only [FitsIn, State.room, List.length_append]

theorem fitsIn_of_le {cap : Capacity} {us ws : List Byte} (h : FitsIn cap ws) (hle : us.length ≤ ws.length) :
    FitsIn cap us :=
  fun c hc => hle.trans (h c hc)

/-- `s` is a decode under alphabet `a`, strict where `st` says so, that goes on with `n` units taken up. What the quantum
holds stands in the state itself, as the loop of `Decode` has it. -/
structure Decoding (a : Alphabet) (st : Bool) (n : Nat) (s : State) : Prop where
  phase : s.phase = .run
  err : s.err = .none
  op : cfgOp s.cfg = .decode
  alph : cfgAlph s.cfg = a
  strict : cfgStrict s.cfg = st
  clean : s.dk = 0 → s.dq = 0#24
  room : s.room 0
  inCnt : s.inCnt = BitVec.ofNat 32 n

/-- R23: the fields of the value a CMD latches. -/
theorem cfgValue_fields (op : Op) (a : Alphabet) (st : Bool) :
    cfgOp (cfgValue op a st) = op ∧ cfgAlph (cfgValue op a st) = a ∧ cfgStrict (cfgValue op a st) = st := by
  cases op <;> cases a <;> cases st <;> decide

/-- R91: an accepted CMD.DECODE stands before the first unit. -/
theorem decoding_startOperation (s : State) (a : Alphabet) (st : Bool) :
    Decoding a st 0 (s.startOperation (cfgValue .decode a st)) := by
  obtain ⟨hop, halph, hstrict⟩ := cfgValue_fields .decode a st
  exact ⟨rfl, rfl, hop, halph, hstrict, fun _ => rfl, fun c _ => Nat.zero_le _, rfl⟩

/-- R130: what an operation that goes on from `s` leaves in `t`, where `Decode` returns `r`. -/
structure DecodeEnds (r : DecodeResult) (s t : State) : Prop where
  phase : t.phase = .done
  answers : t.answers = s.answers
  fits : FitsIn s.outCap r.out → t.err = r.err ∧ t.out = r.out ∧ t.inCnt = BitVec.ofNat 32 r.consumed
  overflows : ¬ FitsIn s.outCap r.out → t.err = .allocationFailure

/-- From `s` the run ends in `n` steps as `Decode` returns `r`, and `rest` is left at the port. -/
def DecodeEndsIn (n : Nat) (r : DecodeResult) (rest : List PortEvent) (s : State) : Prop :=
  ∃ t, runSteps n s = .next t ∧ t.pending = rest ∧ DecodeEnds r s t

/-- R130 for the units `us`, of every decode that has `n` units behind it and `us` at the port. -/
def DecodesFrom (a : Alphabet) (st : Bool) (n : Nat) (us : List Byte) (rest : List PortEvent) : Prop :=
  ∀ m, Decoding a st n m → m.pending = inputEvents us ++ rest →
    DecodeEndsIn (us.length + 1) (decodeLoop a st m.dk m.dq m.out n us) rest m

section DecodeRuns

variable {a : Alphabet} {st : Bool} {n : Nat} {s : State}

theorem Decoding.consume (h : Decoding a st n s) : Decoding a st n s.consume :=
  ⟨h.phase, h.err, h.op, h.alph, h.strict, h.clean, h.room, h.inCnt⟩

/-- R125: one more unit counted, an emission that fits, and a quantum. -/
theorem Decoding.accept (h : Decoding a st n s) {bs : List Byte} (hroom : s.room bs.length) {q : Word24} {k : Fin 4}
    (hclean : k = 0 → q = 0#24) : Decoding a st (n + 1) ((s.countUnit.appendOut bs).setQuantum q k) := by
  refine ⟨h.phase, h.err, h.op, h.alph, h.strict, hclean, (fitsIn_append_iff s bs).2 hroom, ?_⟩
  rw [State.setQuantum_inCnt, State.appendOut_inCnt, State.countUnit_inCnt, h.inCnt, BitVec.ofNat_add]

/-- R124, R129: `Terminate()` emits what `Decode` appends at a stop. -/
theorem terminate_of_stopBytes (hclean : s.dk = 0 → s.dq = 0#24) (hroom : s.room 0) {bs : List Byte}
    (hbs : stopBytes s.dk s.dq = some bs) : terminate s = emitQuantum bs s := by
  have hcases : s.dk = 0 ∨ s.dk = 1 ∨ s.dk = 2 ∨ s.dk = 3 := by omega
  rcases hcases with hk | hk | hk | hk <;> rw [hk] at hbs <;> cases hbs
  · have hsame : (s.appendOut []).setQuantum 0#24 0 = s := by
      rw [State.appendOut_nil, ← hclean hk, ← hk, State.setQuantum]
    rw [terminate_zero hk, emitQuantum_of_room hroom, hsame]
  · exact terminate_two hk
  · exact terminate_three hk

section AtTheUnit

variable {u : Byte} {us : List Byte} {rest : List PortEvent} {r : DecodeResult} (h : Decoding a st n s)
  (hpend : s.pending = .word (encode (.data u)) :: (inputEvents us ++ rest))

include h hpend

/-- A unit that raises an error: the block drains the units that are left. -/
theorem runSteps_of_error {e : ErrCode} (hdata : decData u s.consume.countUnit = .error e) :
    runSteps (us.length + 2) s =
      .next { s.consume.countUnit.raiseErr .data e with pending := rest, phase := .done } := by
  have hexec := exec_data_decode h.consume.phase h.consume.op u
  rw [hdata, settle_error] at hexec
  rw [runSteps_word hpend hexec, runSteps_drain rfl (congrArg List.tail hpend)]

/-- R130, where the unit is the one `Decode` returns an error at. -/
theorem decodeEndsIn_of_error {e : ErrCode} (hdata : decData u s.consume.countUnit = .error e)
    (hr : r = ⟨e, s.out, n + 1⟩) : DecodeEndsIn (us.length + 2) r rest s := by
  subst hr
  refine ⟨_, runSteps_of_error h hpend hdata, rfl, rfl, rfl, fun _ => ⟨rfl, rfl, ?_⟩, fun hlong => absurd h.room hlong⟩
  rw [BitVec.ofNat_add, ← h.inCnt]
  rfl

/-- R130, where the unit is the one whose bytes do not fit. -/
theorem decodeEndsIn_of_full (hdata : decData u s.consume.countUnit = .error .allocationFailure)
    (hlong : ¬ FitsIn s.outCap r.out) : DecodeEndsIn (us.length + 2) r rest s :=
  ⟨_, runSteps_of_error h hpend hdata, rfl, rfl, rfl, fun hfit => absurd hfit hlong, fun _ => rfl⟩

/-- R130, where the operation goes on behind the unit. -/
theorem decodeEndsIn_of_next {m : State} (hdata : decData u s.consume.countUnit = .ok m) (hcap : m.outCap = s.outCap)
    (hans : m.answers = s.answers) (hends : DecodeEndsIn (us.length + 1) r rest m) :
    DecodeEndsIn (us.length + 2) r rest s := by
  have hexec := exec_data_decode h.consume.phase h.consume.op u
  rw [hdata, settle_ok] at hexec
  obtain ⟨t, ht, hrest, hphase, hans', hfits, hover⟩ := hends
  rw [hcap] at hfits hover
  exact ⟨t, (runSteps_word hpend hexec _).trans ht, hrest, hphase, hans'.trans hans, hfits, hover⟩

/-- R130, where the unit ends a quantum: its bytes fit and the operation goes on, or they do not. -/
theorem decodeEndsIn_of_emitQuantum {bs : List Byte}
    (hdata : decData u s.consume.countUnit = emitQuantum bs s.consume.countUnit)
    (ih : DecodesFrom a st (n + 1) us rest) :
    DecodeEndsIn (us.length + 2) (decodeLoop a st 0 0#24 (s.out ++ bs) (n + 1) us) rest s := by
  by_cases hroom : s.room bs.length
  · rw [emitQuantum_of_room (by exact hroom)] at hdata
    exact decodeEndsIn_of_next h hpend hdata rfl rfl
      (ih _ (h.consume.accept hroom fun _ => rfl) (congrArg List.tail hpend))
  · rw [emitQuantum_of_not_room (by exact hroom)] at hdata
    refine decodeEndsIn_of_full h hpend hdata fun hfit => hroom ?_
    exact (fitsIn_append_iff s bs).1 (fitsIn_of_le hfit (decodeLoop_out_grows a st us _ _ _ _))

/-- R130, where the quantum holds the unit's sextet. -/
theorem decodeEndsIn_of_insert {v : Sextet} (hk : s.dk ≠ 3)
    (hdata : decData u s.consume.countUnit =
      .ok (s.consume.countUnit.setQuantum (insertSextet s.dq s.dk v) (s.dk + 1)))
    (ih : DecodesFrom a st (n + 1) us rest) :
    DecodeEndsIn (us.length + 2) (decodeLoop a st (s.dk + 1) (insertSextet s.dq s.dk v) s.out (n + 1) us) rest s := by
  have hnext := h.consume.accept (bs := []) h.room (q := insertSextet s.dq s.dk v) (k := s.dk + 1) fun hzero => by omega
  rw [State.appendOut_nil] at hnext
  exact decodeEndsIn_of_next h hpend hdata rfl rfl (ih _ hnext (congrArg List.tail hpend))

end AtTheUnit

/-- R126, R130: END, the end of the input. -/
theorem decodeEndsIn_end {rest : List PortEvent} (h : Decoding a st n s)
    (hpend : s.pending = .word (encode .endInput) :: rest) :
    DecodeEndsIn 1 (decodeLoop a st s.dk s.dq s.out n []) rest s := by
  have hexec := exec_end_decode h.consume.phase h.consume.op
  by_cases hk : s.dk = 1
  · rw [terminate_one (s := s.consume) hk, settle_error] at hexec
    rw [hk]
    exact ⟨_, runSteps_word hpend hexec 0, congrArg List.tail hpend, rfl, rfl, fun _ => ⟨rfl, rfl, h.inCnt⟩,
      fun hlong => absurd h.room hlong⟩
  · obtain ⟨bs, hbs, _⟩ := stopBytes_of_ne_one hk s.dq
    rw [terminate_of_stopBytes h.consume.clean h.consume.room hbs] at hexec
    rw [decodeLoop_nil hbs]
    by_cases hroom : s.room bs.length
    · rw [emitQuantum_of_room (by exact hroom), settle_ok] at hexec
      exact ⟨_, runSteps_word hpend hexec 0, congrArg List.tail hpend, rfl, rfl, fun _ => ⟨h.err, rfl, h.inCnt⟩,
        fun hlong => absurd ((fitsIn_append_iff s bs).2 hroom) hlong⟩
    · rw [emitQuantum_of_not_room (by exact hroom), settle_error] at hexec
      exact ⟨_, runSteps_word hpend hexec 0, congrArg List.tail hpend, rfl, rfl,
        fun hfit => absurd ((fitsIn_append_iff s bs).1 hfit) hroom, fun _ => rfl⟩

end DecodeRuns

/-- R130, from between two units: the recursion of `Decode` is the recursion of the run. -/
theorem decodesFrom (a : Alphabet) (st : Bool) (n : Nat) (us : List Byte) (rest : List PortEvent) :
    DecodesFrom a st n us rest := by
  intro s h hpend
  induction us generalizing s n with
  | nil => exact decodeEndsIn_end h hpend
  | cons u us ih =>
    have hunit := decData_eq u s.consume.countUnit
    rw [State.countUnit_cfg, h.consume.alph, h.consume.strict] at hunit
    obtain ⟨v, hclass, hdata⟩ | ⟨hclass, hst, hdata⟩ | ⟨hclass, hdata⟩ := hunit
    · by_cases hk : s.dk = 3
      · rw [acceptSextet_three (s := s.consume.countUnit) hk] at hdata
        rw [decodeLoop_of_data hclass, if_pos hk, hk]
        exact decodeEndsIn_of_emitQuantum h hpend hdata (ih _)
      · rw [acceptSextet_of_ne (s := s.consume.countUnit) hk] at hdata
        rw [decodeLoop_of_data hclass, if_neg hk]
        exact decodeEndsIn_of_insert h hpend hk hdata (ih _)
    · exact decodeEndsIn_of_error h hpend hdata (decodeLoop_of_invalid hclass hst)
    · by_cases hk : s.dk = 1
      · rw [terminate_one (s := s.consume.countUnit) hk] at hdata
        rw [hk]
        exact decodeEndsIn_of_error h hpend hdata (decodeLoop_of_stop_one hclass)
      · obtain ⟨bs, hbs, _⟩ := stopBytes_of_ne_one hk s.dq
        rw [terminate_of_stopBytes (s := s.consume.countUnit) h.clean h.room hbs] at hdata
        rw [decodeLoop_of_stop hclass hbs]
        exact decodeEndsIn_of_emitQuantum h hpend hdata (ih _)

/-- R150: the errors beside AllocationFailure. -/
theorem err_eq_of_ne {e : ErrCode} (hnone : e ≠ .none) (halloc : e ≠ .allocationFailure) :
    e = .invalidCharacter ∨ e = .truncatedInput := by
  cases e with
  | none => exact absurd rfl hnone
  | invalidCharacter => exact .inl rfl
  | truncatedInput => exact .inr rfl
  | allocationFailure => exact absurd rfl halloc

/-- R98, R130: the result of an operation that has left what `Decode` leaves. -/
theorem result_eq_decodeAll {a : Alphabet} {st : Bool} {u : List Byte} {t : State}
    (herr : t.err = (decodeRun a st u).err) (hout : t.out = (decodeRun a st u).out) : t.result = decodeAll a st u := by
  cases he : (decodeRun a st u).err <;> simp [State.result, decodeAll, herr, hout, he]

/-- Settles O50: CMD, and then `decodesFrom` from an empty OUT. -/
theorem decodeOperationIsDecode : Obligations.DecodeOperationIsDecode := by
  intro s a st u rest hp hpend
  rw [operationEvents_eq] at hpend
  have hcmd := (exec_cmdDecode_next_iff (s := s.consume) a st).2 ⟨hp, rfl⟩
  obtain ⟨t, ht, hrest, hphase, hans, hfits, hover⟩ :=
    decodesFrom a st 0 u rest _ (decoding_startOperation s.consume a st) (congrArg List.tail hpend)
  refine ⟨t, (runSteps_word hpend hcmd _).trans ht, hphase, hrest, hans, fun hfit => ?_, fun ⟨c, hc, hlt⟩ => ?_⟩
  · obtain ⟨herr, hout, hcnt⟩ : t.err = (decodeRun a st u).err ∧ t.out = (decodeRun a st u).out ∧
        t.inCnt = BitVec.ofNat 32 (decodeRun a st u).consumed := hfits hfit
    refine ⟨?_, fun bytes hok => ?_, fun e he => ?_⟩
    · exact result_eq_decodeAll herr hout
    · obtain ⟨hnone, rfl⟩ := (decodeAll_eq_ok_iff bytes).1 hok
      obtain ⟨hstatus, _⟩ := status_result_of_done hphase (herr.trans hnone)
      refine ⟨hstatus, hout, ?_⟩
      rw [hcnt, decodeRun, decodeLoop_consumed hnone, Nat.zero_add]
    · obtain ⟨rfl, hne⟩ := (decodeAll_eq_error_iff e).1 he
      refine ⟨?_, ?_, outValid_of_error (herr ▸ hne), hout, hcnt⟩
      · exact err_eq_of_ne hne (decodeLoop_err_ne_allocationFailure a st u _ _ _ _)
      · rw [status_eq_statusByte, hphase, herr, statusByte_done_error hne]
  · have herr : t.err = .allocationFailure := hover fun hfit => Nat.not_le.2 hlt (hfit c hc)
    rw [status_eq_statusByte, hphase, herr]
    rfl

end Sys2Proof.Machine

/-! Errors and what stands around them (60_exceptions.md R150 to R164): when DATA and END raise which error and what that
leaves, what ERR does in DRAIN and DONE, several instances, and the block with nothing at its port. -/

namespace Sys2Proof.Machine

/-! ### Raising an error in RUN -/

/-- R153: after a rule that started without an error ERR holds `e` exactly when the rule raised `e`. -/
theorem settle_err_eq_iff {r : Raiser} {s : State} {x : Except ErrCode State} {e : ErrCode}
    (hframe : ∀ t, x = .ok t → DatapathFrame s t) (herr : s.err = .none) (he : e ≠ .none) :
    (settle r s x).err = e ↔ x = .error e := by
  cases x with
  | ok t =>
    have hnone : t.err = .none := (hframe t rfl).err.trans herr
    simp [hnone, he.symm]
  | error e' => cases r <;> simp

section RaisedInRun

variable {s t : State} {e : ErrCode} (hp : s.phase = .run) (herr : s.err = .none)

include hp herr

theorem exec_data_err_eq_iff {u : Byte} (h : exec (.data u) s = .next t) (he : e ≠ .none) :
    t.err = e ↔ datapathData u s.countUnit = .error e := by
  cases (exec_data_run hp u).symm.trans h
  exact settle_err_eq_iff (s := s.countUnit) (fun _ => datapathData_frame) herr he

theorem exec_end_err_eq_iff (h : exec .endInput s = .next t) (he : e ≠ .none) :
    t.err = e ↔ datapathEnd s = .error e := by
  cases (exec_end_run hp).symm.trans h
  exact settle_err_eq_iff (fun _ => datapathEnd_frame) herr he

/-- R153: the state a DATA leaves that raised an error. -/
theorem exec_data_raised {u : Byte} (h : exec (.data u) s = .next t) (hne : t.err ≠ .none) :
    t = s.countUnit.raiseErr .data t.err := by
  have hraise := (exec_data_err_eq_iff hp herr h hne).1 rfl
  rw [exec_data_run hp, hraise, settle_error] at h
  exact (Host.Outcome.next.inj h).symm

/-- R153, R93: the state an END leaves that raised an error. -/
theorem exec_end_raised (h : exec .endInput s = .next t) (hne : t.err ≠ .none) :
    t = (s.raiseErr .endInput t.err).setPhase .done := by
  have hraise := (exec_end_err_eq_iff hp herr h hne).1 rfl
  rw [exec_end_run hp, hraise, settle_error] at h
  exact (Host.Outcome.next.inj h).symm

/-- R153: a DATA that raises an error appends nothing. -/
theorem exec_data_raised_out {u : Byte} (h : exec (.data u) s = .next t) (hne : t.err ≠ .none) : t.out = s.out := by
  rw [exec_data_raised hp herr h hne]
  rfl

theorem exec_end_raised_out (h : exec .endInput s = .next t) (hne : t.err ≠ .none) : t.out = s.out := by
  rw [exec_end_raised hp herr h hne]
  rfl

end RaisedInRun

/-! ### Which error, exactly -/

/-- R151: exactly when a DATA raises InvalidCharacter. -/
theorem datapathData_invalidCharacter_iff (u : Byte) (s : State) :
    datapathData u s = .error .invalidCharacter ↔
      cfgOp s.cfg = .decode ∧ cfgStrict s.cfg = true ∧ revLUT (cfgAlph s.cfg) u = none ∧ u ≠ 0x3D#8 := by
  rw [datapathData_error_iff, terminate_error_iff]
  simp

/-- R151: no END raises it. -/
theorem datapathEnd_ne_invalidCharacter (s : State) : datapathEnd s ≠ .error .invalidCharacter := by
  rw [Ne, datapathEnd_error_iff, terminate_error_iff]
  simp

/-- R152: exactly when a DATA raises TruncatedInput. -/
theorem datapathData_truncatedInput_iff (u : Byte) (s : State) :
    datapathData u s = .error .truncatedInput ↔
      cfgOp s.cfg = .decode ∧ s.dk = 1 ∧
        (u = 0x3D#8 ∨ (revLUT (cfgAlph s.cfg) u = none ∧ cfgStrict s.cfg = false)) := by
  rw [datapathData_error_iff, terminate_error_iff]
  simp [and_comm]

/-- R152: exactly when an END raises it. -/
theorem datapathEnd_truncatedInput_iff (s : State) :
    datapathEnd s = .error .truncatedInput ↔ cfgOp s.cfg = .decode ∧ s.dk = 1 := by
  rw [datapathEnd_error_iff, terminate_error_iff]
  simp

/-- R154: exactly when a DATA raises AllocationFailure. -/
theorem datapathData_allocationFailure_iff (u : Byte) (s : State) :
    datapathData u s = .error .allocationFailure ↔
      (cfgOp s.cfg = .encode ∧ s.ec = 2 ∧ ¬ s.room 4) ∨
      (cfgOp s.cfg = .decode ∧ (∃ v, revLUT (cfgAlph s.cfg) u = some v) ∧ s.dk = 3 ∧ ¬ s.room 3) ∨
      (cfgOp s.cfg = .decode ∧
        (u = 0x3D#8 ∨ (revLUT (cfgAlph s.cfg) u = none ∧ cfgStrict s.cfg = false)) ∧
        ((s.dk = 3 ∧ ¬ s.room 2) ∨ (s.dk = 2 ∧ ¬ s.room 1))) := by
  rw [datapathData_error_iff, terminate_error_iff]
  simp

/-- R154: exactly when an END raises it. -/
theorem datapathEnd_allocationFailure_iff (s : State) :
    datapathEnd s = .error .allocationFailure ↔
      (cfgOp s.cfg = .encode ∧ s.ec ≠ 0 ∧ ¬ s.room 4) ∨
      (cfgOp s.cfg = .decode ∧ ((s.dk = 3 ∧ ¬ s.room 2) ∨ (s.dk = 2 ∧ ¬ s.room 1))) := by
  rw [datapathEnd_error_iff, terminate_error_iff]
  simp

/-- R55: with no capacity bound every emission fits. -/
theorem room_of_outCap_none {s : State} (hcap : s.outCap = none) (n : Nat) : s.room n := by
  simp [State.room, hcap]

theorem datapathData_ne_allocationFailure {s : State} (hcap : s.outCap = none) (u : Byte) :
    datapathData u s ≠ .error .allocationFailure := by
  rw [Ne, datapathData_allocationFailure_iff]
  simp [room_of_outCap_none hcap]

theorem datapathEnd_ne_allocationFailure {s : State} (hcap : s.outCap = none) :
    datapathEnd s ≠ .error .allocationFailure := by
  rw [Ne, datapathEnd_allocationFailure_iff]
  simp [room_of_outCap_none hcap]

/-- Settles O29: `datapathData_invalidCharacter_iff` both ways, and no END raises it. -/
theorem invalidCharacterExactly : Obligations.InvalidCharacterExactly := by
  refine ⟨rfl, fun s u hp herr => ⟨fun hop hst hv hu => ?_, fun t h ht => ?_, fun t h ht => ?_⟩⟩
  · have hraise := (datapathData_invalidCharacter_iff u s.countUnit).2 ⟨hop, hst, hv, hu⟩
    rw [exec_data_run hp, hraise]
    rfl
  · have hraise := (exec_data_err_eq_iff (e := .invalidCharacter) hp herr h nofun).1 ht
    exact (datapathData_invalidCharacter_iff u s.countUnit).1 hraise
  · have hraise := (exec_end_err_eq_iff (e := .invalidCharacter) hp herr h nofun).1 ht
    exact datapathEnd_ne_invalidCharacter s hraise

/-- Settles O31: ERR says what the datapath raised, and IN_CNT is as for every DATA and END. -/
theorem truncatedInputExactly : Obligations.TruncatedInputExactly := by
  refine ⟨rfl, fun s hp herr => ⟨fun u t h => ⟨?_, exec_data_run_inCnt hp h⟩, fun t h => ⟨?_, exec_end_inCnt h⟩⟩⟩
  · have hiff := exec_data_err_eq_iff (e := .truncatedInput) hp herr h nofun
    exact hiff.trans (datapathData_truncatedInput_iff u s.countUnit)
  · have hiff := exec_end_err_eq_iff (e := .truncatedInput) hp herr h nofun
    exact hiff.trans (datapathEnd_truncatedInput_iff s)

/-- Settles O36: ERR says what the datapath raised, a raised error appends nothing, and without a bound every emission
fits. -/
theorem allocationFailureExactly : Obligations.AllocationFailureExactly := by
  refine ⟨rfl, fun s hp herr => ⟨fun u t h => ?_, fun t h => ?_⟩⟩
  · have hiff := exec_data_err_eq_iff (e := .allocationFailure) hp herr h nofun
    exact ⟨hiff.trans (datapathData_allocationFailure_iff u s.countUnit),
      fun ht => exec_data_raised_out hp herr h (by simp [ht]),
      fun hcap ht => datapathData_ne_allocationFailure (s := s.countUnit) hcap u (hiff.1 ht)⟩
  · have hiff := exec_end_err_eq_iff (e := .allocationFailure) hp herr h nofun
    exact ⟨hiff.trans (datapathEnd_allocationFailure_iff s), fun ht => exec_end_raised_out hp herr h (by simp [ht]),
      fun hcap ht => datapathEnd_ne_allocationFailure hcap (hiff.1 ht)⟩

/-! ### After an error, and after an operation -/

/-- R94 to R96: in DRAIN only DATA and END are accepted; the one changes nothing and the other closes. -/
theorem exec_drain_next {i : Instr} {s t : State} (hp : s.phase = .drain) (h : exec i s = .next t) :
    t = s ∨ t = s.setPhase .done := by
  cases i with
  | cmdEncode a st => simp [exec_cmdEncode_busy (.inr hp)] at h
  | cmdDecode a st => simp [exec_cmdDecode_busy (.inr hp)] at h
  | data u =>
    cases (exec_data_drain hp u).symm.trans h
    exact .inl rfl
  | endInput =>
    cases (exec_end_drain hp).symm.trans h
    exact .inr rfl

/-- R153, R156: DRAIN emits nothing and keeps ERR. -/
theorem exec_drain_out_err {i : Instr} {s t : State} (hp : s.phase = .drain) (h : exec i s = .next t) :
    t.out = s.out ∧ t.err = s.err := by
  obtain rfl | rfl := exec_drain_next hp h
  · exact ⟨rfl, rfl⟩
  · exact ⟨rfl, rfl⟩

/-- R90, R91, R96: in DONE only a CMD is accepted, and it clears ERR. -/
theorem exec_done_next {i : Instr} {s t : State} (hp : s.phase = .done) (h : exec i s = .next t) :
    t.err = .none ∧ ((∃ a st, i = .cmdEncode a st) ∨ (∃ a st, i = .cmdDecode a st)) := by
  cases i with
  | cmdEncode a st =>
    obtain ⟨_, rfl⟩ := (exec_cmdEncode_next_iff a st).1 h
    exact ⟨rfl, .inl ⟨a, st, rfl⟩⟩
  | cmdDecode a st =>
    obtain ⟨_, rfl⟩ := (exec_cmdDecode_next_iff a st).1 h
    exact ⟨rfl, .inr ⟨a, st, rfl⟩⟩
  | data u => simp [exec_data_idle (.inr hp)] at h
  | endInput => simp [exec_end_idle (.inr hp)] at h

/-- Settles O37: `exec_data_raised` and `exec_end_raised` give the whole state, and DRAIN keeps OUT and ERR. -/
theorem errorsArePrecise : Obligations.ErrorsArePrecise := by
  refine ⟨fun s t u hp herr h hne => exec_data_raised hp herr h hne, fun s t hp herr h hne => ?_,
    fun s t i hp h => exec_drain_out_err hp h⟩
  exact ⟨exec_end_raised hp herr h hne, outValid_of_error hne⟩

/-- Settles O38: in DRAIN no word changes ERR, in DONE only a CMD is accepted, and a read keeps ERR. -/
theorem errStaysUntilTheNextCmd : Obligations.ErrStaysUntilTheNextCmd := by
  intro s t hp h hne
  obtain ⟨_, rfl⟩ | ⟨w, i, rest, hw, hd, he⟩ | ⟨rest, hr, rfl⟩ | ⟨n, a, rest, _, _, rfl⟩ | ⟨i, a, rest, _, _, rfl⟩ :=
    step_next h
  · exact absurd rfl hne
  · rcases hp with hp | hp
    · exact absurd (exec_drain_out_err (s := s.consume) hp he).2 hne
    · obtain ⟨hnone, hcmd⟩ := exec_done_next (s := s.consume) hp he
      refine .inr ⟨hp, hnone, w, by rw [hw, List.head?_cons], ?_⟩
      rcases hcmd with ⟨a, st, rfl⟩ | ⟨a, st, rfl⟩
      · exact .inl ⟨a, st, hd⟩
      · exact .inr ⟨a, st, hd⟩
  · exact .inl (by rw [hr, List.head?_cons])
  · exact absurd rfl hne
  · exact absurd rfl hne

/-! ### Several instances, and nothing at the port -/

/-- R162: what one block's step reads and writes of the platform: entry `k` alone. -/
theorem stepInstance_next_iff {k : Nat} {p q : Platform} :
    stepInstance k p = .next q ↔
      (p[k]? = none ∧ q = p) ∨ ∃ s t, p[k]? = some s ∧ step s = .next t ∧ q = p.set k t := by
  unfold stepInstance
  cases p[k]? with
  | none => simp [eq_comm]
  | some s => cases hs : step s <;> simp [hs, eq_comm]

/-- R162: a step at entry `k` leaves every other entry alone. -/
theorem stepInstance_getElem?_of_ne {j k : Nat} {p q : Platform} (hjk : j ≠ k) (h : stepInstance k p = .next q) :
    q[j]? = p[j]? := by
  obtain ⟨_, rfl⟩ | ⟨_, t, _, _, rfl⟩ := stepInstance_next_iff.1 h
  · rfl
  · exact List.getElem?_set_ne hjk.symm

/-- R162: two steps at different entries, in the other order. -/
theorem stepInstance_comm {j k : Nat} {p q r : Platform} (hjk : j ≠ k) (hj : stepInstance j p = .next q)
    (hk : stepInstance k q = .next r) : ∃ q', stepInstance k p = .next q' ∧ stepInstance j q' = .next r := by
  have hpk : q[k]? = p[k]? := stepInstance_getElem?_of_ne hjk.symm hj
  have hrj : r[j]? = q[j]? := stepInstance_getElem?_of_ne hjk hk
  obtain ⟨hnone, rfl⟩ | ⟨s, t, hs, hst, rfl⟩ := stepInstance_next_iff.1 hj
  · exact ⟨r, hk, stepInstance_next_iff.2 (.inl ⟨hrj.trans hnone, rfl⟩)⟩
  · obtain ⟨hnone, rfl⟩ | ⟨s', t', hs', hst', rfl⟩ := stepInstance_next_iff.1 hk
    · exact ⟨p, stepInstance_next_iff.2 (.inl ⟨hpk ▸ hnone, rfl⟩), hj⟩
    · have hother : stepInstance k p = .next (p.set k t') :=
        stepInstance_next_iff.2 (.inr ⟨s', t', hpk ▸ hs', hst', rfl⟩)
      have hsame : (p.set k t')[j]? = some s := (stepInstance_getElem?_of_ne hjk hother).trans hs
      exact ⟨_, hother, stepInstance_next_iff.2 (.inr ⟨s, t, hsame, hst, List.set_comm t t' hjk⟩)⟩

/-- Settles O46: `stepInstance_comm`, and each step leaves the other block alone. -/
theorem instancesShareNothing : Obligations.InstancesShareNothing := by
  intro p q r j k hjk hj hk
  obtain ⟨q', hk', hj'⟩ := stepInstance_comm hjk hj hk
  exact ⟨q', hk', hj', stepInstance_getElem?_of_ne hjk hk', stepInstance_getElem?_of_ne hjk.symm hj⟩

/-- Settles O9: with no event `step` takes its first branch. -/
theorem withNothingAtThePortStateIsKept : Obligations.WithNothingAtThePortStateIsKept := by
  intro s hp
  rw [step, hp]

end Sys2Proof.Machine

/-! Reset, and the ends of an operation (70_reset_and_hazards.md R170, R171, R176). -/

namespace Sys2Proof.Machine

/-! ### Reset -/

/-- R170: a step on a reset. -/
theorem step_reset {s : State} {rest : List PortEvent} (hp : s.pending = .reset :: rest) :
    step s = .next { State.resetWith s.outCap with pending := rest, answers := s.answers } := by
  have hstep : step s = .next s.consume.resetBlock := by simp only [step, hp, stepEvent]
  rw [hstep, consume_eq hp]
  rfl

/-- R20, R170: a word never leads to IDLE from another phase, so only a reset does. -/
theorem pending_head_of_step_to_idle {s t : State} (hs : s.phase ≠ .idle) (h : step s = .next t) (ht : t.phase = .idle) :
    s.pending.head? = some .reset := by
  have hchange : t.phase ≠ s.phase := fun heq => hs (heq.symm.trans ht)
  obtain ⟨hreset, _⟩ | ⟨_, _, _, _, ⟨_, _, hrun⟩ | ⟨_, _, hdone⟩ | ⟨_, _, hdrain, _⟩⟩ :=
    phaseMovesOnlyAsListed s t h hchange
  · exact hreset
  · exact absurd (ht.symm.trans hrun) nofun
  · exact absurd (ht.symm.trans hdone) nofun
  · exact absurd (ht.symm.trans hdrain) nofun

/-- Settles O13: `step_reset` for the registers, `pending_head_of_step_to_idle` for the way back to IDLE. -/
theorem resetSetsEveryRegister : Obligations.ResetSetsEveryRegister :=
  ⟨fun _ _ hp => step_reset hp, fun _ _ hs h ht => pending_head_of_step_to_idle hs h ht⟩

/-- Settles O14: the state after reset is in IDLE, where the refusals and the accepted CMDs are those of R90 to R93. -/
theorem afterResetOnlyCmdIsAccepted : Obligations.AfterResetOnlyCmdIsAccepted := by
  intro cap u a st
  have hidle : (State.resetWith cap).phase = .idle := rfl
  exact ⟨hidle, exec_data_idle (.inl hidle) u, exec_end_idle (.inl hidle),
    ⟨_, (exec_cmdEncode_next_iff a st).2 ⟨.inl hidle, rfl⟩, rfl⟩,
    ⟨_, (exec_cmdDecode_next_iff a st).2 ⟨.inl hidle, rfl⟩, rfl⟩⟩

/-! ### The end of an operation -/

/-- R93, R95: what END answers in RUN and in DRAIN ends in DONE. -/
theorem exec_end_answers_done {s : State} (hp : s.phase = .run ∨ s.phase = .drain) :
    ∃ t, exec .endInput s = .next t ∧ t.phase = .done := by
  rcases hp with hp | hp
  · exact ⟨_, exec_end_run hp, rfl⟩
  · exact ⟨_, exec_end_drain hp, rfl⟩

/-- R24: the fields DONE, BUSY and OUT_VALID in DONE. -/
theorem fields_of_done {t : State} (hp : t.phase = .done) :
    t.done = true ∧ t.busy = false ∧ (t.outValid = true ↔ t.err = .none) := by
  simp [State.done, State.busy, State.outValid, hp]

/-- Settles O45: END answers a state in DONE, and `fields_of_done` reads its STATUS. -/
theorem endClosesTheOperation : Obligations.EndClosesTheOperation := by
  intro s hp
  obtain ⟨t, ht, hdone⟩ := exec_end_answers_done hp
  exact ⟨t, ht, hdone, fields_of_done hdone⟩

end Sys2Proof.Machine
